-- ==== Sys2Proof/Word.lean ====
section
/-! DEFINITION. The word types of the CRC32 core (00_scope.md R7, R8). -/

namespace Sys2Proof

/-- A 32-bit register, polynomial, seed, mask, accumulator, result or message address (R7). -/
abbrev Word := BitVec 32

/-- One message byte, or a table index (R8). -/
abbrev Byte := BitVec 8

end Sys2Proof
end

