-- ==== Sys2Proof/Syntax.lean ====
section
/-! DEFINITION. The commands of the CRC32 core, one constructor per row of spec/opcode_table.json, and the
assembler's spelling of a command (30_encoding.md R82, R87). -/

namespace Sys2Proof

/-- The five commands of R82. -/
inductive Instr where
  /-- Bit-Serial Divider over the message (40_dividers.md R104). -/
  | divs
  /-- Branchless Divider over the message (R106). -/
  | divb
  /-- Table Builder (41_table.md R122); `s` is the strategy bit `S`: `false` (0) the Branchless Divider,
  `true` (1) the Bit-Serial Divider (R81). -/
  | tbuild (s : Bool)
  /-- Table-Driven Evaluator over the message (R126). -/
  | teval
  /-- Hardware-Accelerated Evaluator over the message (42_hw_eval.md R143). -/
  | hweval
  deriving DecidableEq, Repr

/-- One line of the assembler: a mnemonic and at most one numeric operand (R87). -/
structure AsmLine where
  mnemonic : String
  operand : Option Nat
  deriving DecidableEq, Repr

end Sys2Proof
end

