-- ==== Sys2Proof/WellFormed.lean ====
section
/-! DEFINITION. Which commands and assembler lines are well formed (30_encoding.md R83, R87). -/

namespace Sys2Proof

/-- Every term of `Instr` is a command: a command has no operand but the one strategy bit of `TBUILD`,
and its type admits 0 and 1 only (R81, R83). What can be ill formed is a line (`AsmLine.wellFormed`) or a
word (`decode`). -/
def Instr.wellFormed : Instr → Bool
  | .divs => true
  | .divb => true
  | .tbuild _ => true
  | .teval => true
  | .hweval => true

/-- The mnemonic is one of the five, in upper case (R87). -/
def AsmLine.mnemonicKnown (l : AsmLine) : Bool :=
  l.mnemonic ∈ ["DIVS", "DIVB", "TBUILD", "TEVAL", "HWEVAL"]

/-- Only `TBUILD` takes an operand (R87). -/
def AsmLine.operandAllowed (l : AsmLine) : Bool :=
  l.operand.isNone || l.mnemonic == "TBUILD"

/-- An operand is 0 or 1 (R87). -/
def AsmLine.operandInRange (l : AsmLine) : Bool :=
  l.operand.all (· ≤ 1)

/-- What the assembler of R87 accepts; it "refuses any other spelling, and any operand other than 0 or 1". -/
def AsmLine.wellFormed (l : AsmLine) : Bool :=
  l.mnemonicKnown && l.operandAllowed && l.operandInRange

end Sys2Proof
end

