-- ==== Sys2Proof/Decode.lean ====
section
/-! DEFINITION. The command decoder, the encoder and the assembler of the CRC32 core (30_encoding.md R80 to R87). -/

namespace Sys2Proof

/-- Why a word is no command. Each is the decoder's `ILLEGAL` (R84); the core does not record which. -/
inductive Illegal where
  /-- A bit of `RSV`, 31:5, is set. -/
  | reservedBits
  /-- `OP` is 0 or 6 to 15. -/
  | opcode
  /-- `S` is set in a command other than `TBUILD`. -/
  | strategyBit
  /-- The bytes are not one 32-bit word (R80, R86); no host access presents this to the decoder. -/
  | notOneWord
  deriving DecidableEq, Repr

/-- The field `OP`, bits 3:0 (R81). -/
def opField (c : Word) : BitVec 4 := c.extractLsb' 0 4

/-- The field `S`, bit 4 (R81). -/
def strategyField (c : Word) : Bool := c.getLsbD 4

/-- The field `RSV`, bits 31:5 (R81). -/
def reservedField (c : Word) : BitVec 27 := c.extractLsb' 5 27

/-- The command of an opcode and a strategy bit, as the case split of R84 has it. -/
def commandOf (op : BitVec 4) (s : Bool) : Except Illegal Instr :=
  match op.toNat with
  | 1 => if s then .error .strategyBit else .ok .divs
  | 2 => if s then .error .strategyBit else .ok .divb
  | 3 => .ok (.tbuild s)
  | 4 => if s then .error .strategyBit else .ok .teval
  | 5 => if s then .error .strategyBit else .ok .hweval
  | _ => .error .opcode

/-- `decode(c)` of R84, total on 32-bit words. -/
def decode (c : Word) : Except Illegal Instr :=
  if reservedField c ≠ 0#27 then .error .reservedBits
  else commandOf (opField c) (strategyField c)

/-- The opcode of a command (R82). -/
def opcodeOf : Instr → BitVec 4
  | .divs => 0x1#4
  | .divb => 0x2#4
  | .tbuild _ => 0x3#4
  | .teval => 0x4#4
  | .hweval => 0x5#4

/-- The strategy bit of a command's word; 0 in every command but `TBUILD` (R81). -/
def strategyOf : Instr → Bool
  | .divs => false
  | .divb => false
  | .tbuild s => s
  | .teval => false
  | .hweval => false

/-- The word of a command, by the fields of R81. -/
def encode (i : Instr) : Word :=
  0#27 ++ BitVec.ofBool (strategyOf i) ++ opcodeOf i

/-- A word's four bytes in the lane order of 20_memory.md R67: bits 7:0 on the lowest lane. -/
def lanesOfWord (c : Word) : List Byte :=
  [c.extractLsb' 0 8, c.extractLsb' 8 8, c.extractLsb' 16 8, c.extractLsb' 24 8]

/-- The decoder on the bytes of a register access, total on any bytes: exactly one 32-bit word can be a
command (R80, R86). -/
def decodeBytes : List Byte → Except Illegal Instr
  | [b0, b1, b2, b3] => decode (b3 ++ b2 ++ b1 ++ b0)
  | _ => .error .notOneWord

/-- The bits of `w` below `nbits`, as the command word they lay out; every bit above `nbits` is 0. -/
def wordOfTableBits (nbits w : Nat) : Word := BitVec.ofNat 32 (w % 2 ^ nbits)

/-- The decoder on an instruction numbered as spec/opcode_table.json numbers it. -/
def decodeTableWord (nbits w : Nat) : Option Instr :=
  if 2 ^ 32 ≤ w % 2 ^ nbits then none
  else (decodeBytes (lanesOfWord (wordOfTableBits nbits w))).toOption

/-- The assembler: an absent `TBUILD` operand means `S = 0` (R87). -/
def AsmLine.assemble (l : AsmLine) : Option Instr :=
  if !l.wellFormed then none
  else if l.mnemonic = "DIVS" then some .divs
  else if l.mnemonic = "DIVB" then some .divb
  else if l.mnemonic = "TBUILD" then some (.tbuild (l.operand == some 1))
  else if l.mnemonic = "TEVAL" then some .teval
  else some .hweval

end Sys2Proof
end

