-- ==== Sys2Proof/Config.lean ====
section
/-! DEFINITION. What an implementation of the CRC32 core fixes (00_scope.md R7) and the values the spec leaves free. -/

namespace Sys2Proof

/-- The `OPEN` parameters of R7. They are a field of the machine's state that no step changes, so a
statement about every state is a statement about every value of the parameters (log 1). -/
structure Params where
  /-- `CRC_BASE`, the platform address of the register window, a multiple of 64 (R7, R22). -/
  crcBase : Word
  /-- `HW_POLY`, the fixed polynomial of `HWEVAL`, normal form (R140). -/
  hwPoly : Word
  /-- `HW_REFLECT`: `true` is 1, the reflected bit order (R142). -/
  hwReflect : Bool
  /-- `BUS_ERR` as a list of inclusive address ranges whose reads answer with a bus error (R62; log 16). -/
  busErr : List (Word × Word)
  deriving DecidableEq, Repr

namespace Config

/-- `ID_VALUE`, the content of register `ID` (R7, 10_state.md R26). -/
def idValue : Word := 0x43520100#32

/-- The parameters of the state after reset: the spec's reference configuration of `HW_POLY` and
`HW_REFLECT` (D8). `CRC_BASE` and an empty `BUS_ERR` are DESIGN CHOICE (log 1). -/
def reference : Params :=
  { crcBase := 0x40000000#32, hwPoly := 0x1EDC6F41#32, hwReflect := true, busErr := [] }

/-- A free value (log 9): which of the values a racing message byte held the `n`th draw returns (R196). -/
opaque raceChoice : Nat → Nat

/-- A free value (log 8): the word that slot `i` of the core's unspecified storage holds after the
reset that takes draw `n`. Slots 0 to 255 are the table RAM (R192), 256 on the working registers (U2). -/
opaque afterReset : Nat → Nat → Word

end Config

end Sys2Proof
end

