-- ==== Sys2Proof/Machine/State.lean ====
section
/-! DEFINITION. The state of the CRC32 core and its platform, the reasons a step can stop, and the state after
reset (10_state.md, 20_memory.md R60). -/

namespace Sys2Proof.Machine

/-- The fields of register `STATUS` (R31). Bits 31:9 are reserved and hold nothing (R25; log 12). -/
structure Status where
  /-- bit 0 -/
  busy : Bool
  /-- bit 1 -/
  done : Bool
  /-- bit 2 -/
  err : Bool
  /-- bit 3 -/
  cmdLost : Bool
  /-- bits 7:4 -/
  ecode : BitVec 4
  /-- bit 8 -/
  tvalid : Bool
  deriving DecidableEq, Repr

/-- The engine's working registers `w[...]`, which the host cannot read (R44, R45). Between commands they keep their
last values, DESIGN CHOICE: there they may hold any value (U2; log 23). -/
structure Working where
  /-- `w[OP]`, the opcode of the running command. -/
  op : BitVec 4
  /-- `w[S]`, its strategy bit. -/
  s : Bool
  /-- `w[K]`, the index of the next message byte or table entry. -/
  k : Word
  /-- `w[ACC]`, the CRC register. -/
  acc : Word
  /-- `w[POLY]` -/
  poly : Word
  /-- `w[INIT]` -/
  init : Word
  /-- `w[FXOR]` -/
  fxor : Word
  /-- `w[ADDR]` -/
  addr : Word
  /-- `w[LEN]` -/
  len : Word
  deriving DecidableEq, Repr

/-- `eng` of R45. -/
inductive Engine where
  | idle
  | run
  deriving DecidableEq, Repr

/-- One transaction of the register port as the host issues it on its bus (R22, R23; log 10). -/
structure Access where
  /-- The platform address. -/
  addr : Word
  /-- The width in bits. -/
  bits : Nat
  /-- The byte enables of the 32-bit port. -/
  enables : BitVec 4
  deriving DecidableEq, Repr

/-- What the agents of R20 can do next. A schedule of these is the interleaving (log 2). -/
inductive Event where
  /-- The host reads a register. -/
  | hostRead (a : Access)
  /-- The host writes a register. -/
  | hostWrite (a : Access) (v : Word)
  /-- The engine takes one step, if a command runs. -/
  | engine
  /-- `rst` is asserted and released (70_reset_and_hazards.md R190, R191). -/
  | rst
  /-- The host or another bus master writes one byte of message memory (20_memory.md R74, R196). -/
  | busWrite (a : Word) (b : Byte)
  /-- The platform makes every earlier memory write visible at the read port (R74). -/
  | makeVisible
  deriving DecidableEq, Repr

/-- Memory as address and byte pairs: addresses strictly rising, no byte listed that an unlisted
address reads as (`Memory.wf` in Machine/Ops.lean). -/
abbrev Memory := List Host.Cell

/-- The CRC32 core, the message memory it reads, and the schedule of its agents. -/
structure State where
  /-- The `OPEN` parameters of R7. -/
  params : Params
  /-- `CTRL.IE` (R29). -/
  ie : Bool
  /-- `STATUS` (R31). -/
  status : Status
  /-- `POLY` (R33). -/
  poly : Word
  /-- `INIT` (R34). -/
  init : Word
  /-- `FXOR` (R35). -/
  fxor : Word
  /-- `ADDR` (R36). -/
  addr : Word
  /-- `LEN` (R37). -/
  len : Word
  /-- `RESULT` (R38). -/
  result : Word
  /-- `TIDX.IDX` (R39). -/
  idx : Byte
  /-- `FADDR` (R41). -/
  faddr : Word
  /-- The table RAM `TBL[0..255]` (R42). -/
  tbl : Vector Word 256
  /-- The working registers (R44, R45). -/
  w : Working
  /-- The message memory (20_memory.md R60, R62). -/
  mem : Memory
  /-- The model's own: older bytes whose overwriting is not yet visible at the read port (R74; log 9). -/
  unsynced : List Host.Cell
  /-- The model's own: older bytes overwritten since the running command was accepted (R196; log 9). -/
  window : List Host.Cell
  /-- The model's own: the addresses of the message reads issued, newest first (log 13). -/
  msgReads : List Word
  /-- The model's own: address and data of the host's reads, newest first (log 13). -/
  hostReads : List (Word × Word)
  /-- The model's own: how many free values have been drawn (log 8, log 9). -/
  draws : Nat
  /-- The model's own: what the agents do next; when it is empty the engine steps (log 2, log 3). -/
  events : List Event
  deriving DecidableEq, Repr

/-- Why the machine can stop. The core itself has no trap and no stop (60_exceptions.md R160). -/
inductive Fault where
  /-- Raised by an engine step when `BUSY = 1` and `w[OP]`, `w[S]` name no command. Safe: no run
  reaches such a state, and the machine stops in it (log 11). -/
  | corruptOpcode
  deriving DecidableEq, Repr

/-- What the model gives no step. -/
inductive Refusal where
  /-- Raised by `exec` for a command without a meaning; no arm uses it. Safe. -/
  | notModelled (mnemonic : String)
  /-- Raised by a host access to the window that is not one aligned, fully enabled 32-bit access
  (R23: "A model gives it no step"). Safe (log 10). -/
  | unsupportedAccess
  /-- Raised by a host access outside the window, which is no transaction of this core. Safe (log 10). -/
  | outsideWindow
  deriving DecidableEq, Repr

/-- The working registers of the state after reset: DESIGN CHOICE 0, the spec leaves them unspecified (U2; log 7). -/
def Working.zero : Working :=
  { op := 0#4, s := false, k := 0#32, acc := 0#32, poly := 0#32, init := 0#32, fxor := 0#32,
    addr := 0#32, len := 0#32 }

/-- `STATUS` after reset (R48). -/
def Status.zero : Status :=
  { busy := false, done := false, err := false, cmdLost := false, ecode := 0#4, tvalid := false }

/-- The machine right after reset (R48, R191), idle and waiting for a `CMD` write (R193). The table RAM
and working registers are DESIGN CHOICE 0 (log 7), the parameters are log 1. -/
def State.reset : State :=
  { params := Config.reference, ie := false, status := Status.zero, poly := 0#32, init := 0#32,
    fxor := 0#32, addr := 0#32, len := 0#32, result := 0#32, idx := 0#8, faddr := 0#32,
    tbl := Vector.replicate 256 0#32, w := Working.zero, mem := [], unsynced := [], window := [],
    msgReads := [], hostReads := [], draws := 0, events := [] }

end Sys2Proof.Machine
end

