-- ==== Sys2Proof/Machine/Flags.lean ====
section
/-! DEFINITION. The flags of the CRC32 core: the bits of `STATUS`, how they are set and cleared, and the interrupt
level (10_state.md R31, R32, R46; 60_exceptions.md R161, R164, R165, R168, R170). The core has no condition codes. -/

namespace Sys2Proof.Machine

/-- `STATUS` as the host reads it (R31): `BUSY` 0, `DONE` 1, `ERR` 2, `CMDLOST` 3, `ECODE` 7:4, `TVALID` 8. -/
def Status.word (st : Status) : Word :=
  0#23 ++ BitVec.ofBool st.tvalid ++ st.ecode ++ BitVec.ofBool st.cmdLost ++ BitVec.ofBool st.err
    ++ BitVec.ofBool st.done ++ BitVec.ofBool st.busy

/-- A host write of `v` to `STATUS` (R32): writing 1 clears `DONE`, `ERR` with `ECODE`, `CMDLOST`; every
other bit of `v` is ignored. -/
def Status.clearedBy (v : Word) (st : Status) : Status :=
  { st with
    done := st.done && !v.getLsbD 1
    err := st.err && !v.getLsbD 2
    ecode := if v.getLsbD 2 then 0#4 else st.ecode
    cmdLost := st.cmdLost && !v.getLsbD 3 }

/-- Acceptance of any word clears `DONE`, `ERR` and `ECODE` and keeps `CMDLOST` (R161). -/
def Status.accepting (st : Status) : Status :=
  { st with done := false, err := false, ecode := 0#4 }

/-- Acceptance of a legal command sets `BUSY` (R161); acceptance of `TBUILD` also clears `TVALID` (R43). -/
def Status.started (clearsTable : Bool) (st : Status) : Status :=
  { st.accepting with busy := true, tvalid := st.tvalid && !clearsTable }

/-- Successful completion (R164). -/
def Status.finished (st : Status) : Status :=
  { st with done := true, busy := false }

/-- An error completion with error code `code` (R165). -/
def Status.failed (code : BitVec 4) (st : Status) : Status :=
  { st with ecode := code, err := true, done := true, busy := false }

/-- A lost command word (R168). -/
def Status.lost (st : Status) : Status :=
  { st with cmdLost := true }

/-- `eng` of R45: "`RUN` exactly when `STATUS.BUSY = 1`". -/
def State.eng (s : State) : Engine :=
  if s.status.busy then .run else .idle

/-- The level interrupt output, `x[CTRL].IE & x[STATUS].DONE` (R170). -/
def State.irq (s : State) : Bool :=
  s.ie && s.status.done

end Sys2Proof.Machine
end

