-- ==== Sys2Proof/Machine/Operands.lean ====
section
/-! DEFINITION. The arithmetic primitives of 00_scope.md R9, the table RAM's accessors, and the register window:
what a host access reaches, what a read returns, what a write does (10_state.md R22 to R41). -/

namespace Sys2Proof.Machine

/-- `zext_32(b)` of a byte (R9). -/
def zext32 (b : Byte) : Word := b.setWidth 32

/-- `zext_32(m)` of one bit (R9, R101). -/
def zextBit (m : Bool) : Word := (BitVec.ofBool m).setWidth 32

/-- `mask32(bit)`: `(0 - zext_32(bit)) mod 2^32` (R9). -/
def mask32 (m : Bool) : Word := 0#32 - zextBit m

/-- `bitrev32(v)`: bit `i` of the result is bit `31 - i` of `v` (R9). -/
def bitrev32 (v : Word) : Word := v.reverse

/-- `TBL[i]` (R10, R42). -/
def tblGet (t : Vector Word 256) (i : Byte) : Word := t[i.toNat]'i.isLt

/-- `TBL[i] <- v` (R10, R42). -/
def tblSet (t : Vector Word 256) (i : Byte) (v : Word) : Vector Word 256 := t.set i.toNat v i.isLt

/-- The sixteen slots of the register window (R22). -/
inductive Reg where
  | id | cap | hwpoly | ctrl | cmd | status | poly | init | fxor | addr | len | result | tidx | tdata
  | faddr | reserved
  deriving DecidableEq, Repr

/-- The byte offset of a slot (R22). -/
def Reg.offset : Reg → Nat
  | .id => 0x00 | .cap => 0x04 | .hwpoly => 0x08 | .ctrl => 0x0C | .cmd => 0x10 | .status => 0x14
  | .poly => 0x18 | .init => 0x1C | .fxor => 0x20 | .addr => 0x24 | .len => 0x28 | .result => 0x2C
  | .tidx => 0x30 | .tdata => 0x34 | .faddr => 0x38 | .reserved => 0x3C

/-- The slot at a byte offset, if one begins there (R22). -/
def regAt : Nat → Option Reg
  | 0x00 => some .id | 0x04 => some .cap | 0x08 => some .hwpoly | 0x0C => some .ctrl
  | 0x10 => some .cmd | 0x14 => some .status | 0x18 => some .poly | 0x1C => some .init
  | 0x20 => some .fxor | 0x24 => some .addr | 0x28 => some .len | 0x2C => some .result
  | 0x30 => some .tidx | 0x34 => some .tdata | 0x38 => some .faddr | 0x3C => some .reserved
  | _ => none

/-- The whole-word access to a slot, `CRC_BASE + offset(REG)` (30_encoding.md R88). -/
def Reg.access (base : Word) (r : Reg) : Access :=
  { addr := base + BitVec.ofNat 32 r.offset, bits := 32, enables := 0xF#4 }

/-- Which slot an access reaches. Only aligned 32-bit accesses with every byte enabled have a step
(R23); an address outside the 64 bytes of the window is no access to this core (log 10). -/
def resolve (base : Word) (a : Access) : Except Refusal Reg :=
  if 64 ≤ (a.addr - base).toNat then .error .outsideWindow
  else if a.bits = 32 ∧ a.enables = 0xF#4 then
    match regAt (a.addr - base).toNat with
    | some r => .ok r
    | none => .error .unsupportedAccess
  else .error .unsupportedAccess

/-- The word a host read of a slot returns (R24 to R41). No read has a side effect (R25). -/
def readReg (s : State) : Reg → Word
  | .id => Config.idValue
  | .cap => zextBit s.params.hwReflect
  | .hwpoly => s.params.hwPoly
  | .ctrl => zextBit s.ie
  | .cmd => 0#32
  | .status => s.status.word
  | .poly => s.poly
  | .init => s.init
  | .fxor => s.fxor
  | .addr => s.addr
  | .len => s.len
  | .result => s.result
  | .tidx => zext32 s.idx
  | .tdata => if s.status.tvalid then tblGet s.tbl s.idx else 0#32
  | .faddr => s.faddr
  | .reserved => 0#32

/-- A host write of `v` to a slot other than `CMD` (R24, R25, R29, R32 to R39); a write to `CMD` presents a
command word and is `presentCommand` (Machine/Agents.lean). -/
def writeReg (v : Word) (s : State) : Reg → State
  | .id => s
  | .cap => s
  | .hwpoly => s
  | .ctrl => { s with ie := v.getLsbD 0 }
  | .cmd => s
  | .status => { s with status := s.status.clearedBy v }
  | .poly => { s with poly := v }
  | .init => { s with init := v }
  | .fxor => { s with fxor := v }
  | .addr => { s with addr := v }
  | .len => { s with len := v }
  | .result => s
  | .tidx => { s with idx := v.setWidth 8 }
  | .tdata => s
  | .faddr => s
  | .reserved => s

end Sys2Proof.Machine
end

