-- ==== Sys2Proof/Machine/Ops.lean ====
section
/-! DEFINITION. The shared operations: message memory, the read port, acceptance, error and successful completion, and
one engine step over a message byte (20_memory.md, 60_exceptions.md). -/

namespace Sys2Proof.Machine

/-- What an address that memory does not list reads as: DESIGN CHOICE `0x00` (log 6). -/
def Memory.blank : Byte := 0#8

/-- The content of memory at an address. -/
def Memory.read : Memory → Nat → Byte
  | [], _ => Memory.blank
  | c :: m, a => if c.1 = a then c.2 else Memory.read m a

/-- Memory after a write, in canonical form. -/
def Memory.write : Memory → Nat → Byte → Memory
  | [], a, b => if b = Memory.blank then [] else [(a, b)]
  | c :: m, a, b =>
    if a < c.1 then (if b = Memory.blank then c :: m else (a, b) :: c :: m)
    else if a = c.1 then (if b = Memory.blank then m else (a, b) :: m)
    else c :: Memory.write m a b

/-- The canonical form: addresses of the 2^32-byte space, strictly rising, no byte listed that an
unlisted address reads as. -/
abbrev Memory.wf (m : Memory) : Prop :=
  m.Pairwise (fun c d => c.1 < d.1) ∧ ∀ c ∈ m, c.1 < 2 ^ 32 ∧ c.2 ≠ Memory.blank

/-- `BUS_ERR(a)` (20_memory.md R62; log 16). -/
def busErrAt (p : Params) (a : Word) : Bool :=
  p.busErr.any fun r => decide (r.1 ≤ a) && decide (a ≤ r.2)

/-- The values a byte held that a list of overwritten bytes records. -/
def heldBefore (a : Nat) (old : List Host.Cell) : List Byte :=
  (old.filter fun c => c.1 = a).map (·.2)

/-- The values that other bus masters will write to a byte before the `n`th engine step from now, which
is the running command's completion; a reset ends the command sooner (R196; log 9). -/
def heldLater (a : Nat) : Nat → List Event → List Byte
  | _, [] => []
  | 0, _ => []
  | n + 1, e :: es =>
    match e with
    | .engine => heldLater a n es
    | .rst => []
    | .busWrite x b => if x.toNat = a then b :: heldLater a (n + 1) es else heldLater a (n + 1) es
    | .hostRead _ => heldLater a (n + 1) es
    | .hostWrite _ _ => heldLater a (n + 1) es
    | .makeVisible => heldLater a (n + 1) es

/-- The values other than its content that a message byte may read as: what it held while its
overwriting was not visible (R74), and what it holds at any time from the `CMD` write to the completion (R196). -/
def State.raceValues (s : State) (a : Word) : List Byte :=
  (heldBefore a.toNat s.window ++ heldBefore a.toNat s.unsynced
    ++ heldLater a.toNat (s.w.len - s.w.k).toNat s.events).filter
    (· ≠ s.mem.read a.toNat)

/-- The response of the read port (20_memory.md R62). -/
inductive Response where
  | byte (b : Byte)
  | busError
  deriving DecidableEq, Repr

/-- One of a content and the other values a byte may read as, by a free choice; the content where there
is no other value. -/
def pickByte (content : Byte) (others : List Byte) (choice : Nat) : Byte :=
  match others with
  | [] => content
  | b :: bs => (content :: b :: bs).getD (choice % (bs.length + 2)) content

/-- `MemRead(a, 1)` (R62): the memory's content, except in a race (log 9). -/
def State.memRead (s : State) (a : Word) : Response :=
  if busErrAt s.params a then .busError
  else .byte (pickByte (s.mem.read a.toNat) (s.raceValues a) (Config.raceChoice s.draws))

/-- The address of the next message byte, `(w[ADDR] + w[K]) mod 2^32` (R63). -/
def State.byteAddr (s : State) : Word := s.w.addr + s.w.k

/-- A message read is issued on the read port (log 13); one free value is drawn where it races (log 9). -/
def State.issueRead (s : State) (a : Word) : State :=
  { s with
    msgReads := a :: s.msgReads
    draws := if s.raceValues a = [] then s.draws else s.draws + 1 }

/-- The error completions (60_exceptions.md R166). -/
inductive CmdError where
  /-- A word that decodes to `ILLEGAL` (R162). -/
  | illegalCmd
  /-- `TEVAL` with `TVALID = 0` (R163). -/
  | tableInvalid
  /-- A message read at this address answered with a bus error (R167). -/
  | busError (a : Word)
  deriving DecidableEq, Repr

/-- The codes of R166. -/
def CmdError.code : CmdError → BitVec 4
  | .illegalCmd => 1#4
  | .tableInvalid => 2#4
  | .busError _ => 3#4

/-- What `FADDR` holds after an error, where it held `old` (R165). -/
def CmdError.faddr (old : Word) : CmdError → Word
  | .illegalCmd => old
  | .tableInvalid => old
  | .busError a => a

/-- `raise E(info)`, the one way a command ends in an error (R165). It saves the code and, for a bus
error, the address; there is no handler to enter (R160, R173). That the working registers keep their last values is
DESIGN CHOICE: U2 of 93_implementation_defined.md lets them hold any value between commands (log 23). -/
def raise (e : CmdError) (s : State) : State :=
  { s with status := s.status.failed e.code, faddr := e.faddr s.faddr }

/-- The return from an error: a host write of `v` to `STATUS` (R174, 10_state.md R32). -/
def returnFromError (v : Word) (s : State) : State :=
  writeReg v s .status

/-- The first action of acceptance (R161). -/
def beginAcceptance (s : State) : State :=
  { s with status := s.status.accepting }

/-- The working registers after acceptance of `i` with accumulator `acc`: the snapshot of R44, the
opcode and strategy bit of R161, and `w[K] <- 0` (log 5). -/
def snapshot (i : Instr) (acc : Word) (s : State) : Working :=
  { op := opcodeOf i, s := strategyOf i, k := 0#32, acc := acc, poly := s.poly, init := s.init,
    fxor := s.fxor, addr := s.addr, len := s.len }

/-- Acceptance of a legal command (R161), in one atomic step; the race window opens (R196). -/
def accept (i : Instr) (clearsTable : Bool) (acc : Word) (s : State) : State :=
  { s with
    status := s.status.started clearsTable
    w := snapshot i acc s
    window := [] }

/-- Successful completion of a command that returns `v` (R164, 10_state.md R38). That the working registers keep
their last values is DESIGN CHOICE (U2; log 23). -/
def completeResult (v : Word) (s : State) : State :=
  { s with result := v, status := s.status.finished }

/-- Successful completion of `TBUILD` (R164, 10_state.md R43). That the working registers keep their last values is
DESIGN CHOICE (U2; log 23). -/
def completeTable (s : State) : State :=
  { s with status := { s.status.finished with tvalid := true } }

/-- A `CMD` write while a command runs (R168): its only effect is `CMDLOST <- 1`. -/
def loseCommand (s : State) : State :=
  { s with status := s.status.lost }

/-- The accumulator and the index move on past a consumed byte. -/
def State.advance (s : State) (acc : Word) : State :=
  { s with w := { s.w with acc := acc, k := s.w.k + 1#32 } }

/-- One engine step over the next message byte, with update `f` (R104): one read, then either the
byte is consumed or the bus error ends the command in the same step (R167). -/
def byteStep (f : Word → Byte → Word) (s : State) : State :=
  match s.memRead s.byteAddr with
  | .busError => raise (.busError s.byteAddr) (s.issueRead s.byteAddr)
  | .byte b => (s.issueRead s.byteAddr).advance (f s.w.acc b)

/-- The engine's part of a command over the message, with update `f` and return value `final`: one
step per byte while `w[K] < w[LEN]`, then the completion step (R104, R106, R126, R143). -/
def messageStep (f : Word → Byte → Word) (final : Word) (s : State) : State :=
  if s.w.k < s.w.len then byteStep f s else completeResult final s

end Sys2Proof.Machine
end

