-- ==== Sys2Proof/Machine/Dividers.lean ====
section
/-! DEFINITION. The Bit-Serial and the Branchless Divider, and the commands `DIVS` and `DIVB` (40_dividers.md). -/

namespace Sys2Proof.Machine

/-- A step of a divider applied to `n` bits of a byte, bit 7 first, the byte shifting left (R102, R105). -/
def msbFirst (step : Word → Bool → Word) : Nat → Word → Byte → Word
  | 0, r, _ => r
  | n + 1, r, b => msbFirst step n (step r (b.getLsbD 7)) (b <<< 1)

/-- `DivStepS(r, m, P)` (R101): the test is on bit 31 before the shift. -/
def divStepS (p : Word) (r : Word) (m : Bool) : Word :=
  let shifted := (r <<< 1) ||| zextBit m
  if r.getLsbD 31 then shifted ^^^ p else shifted

/-- `DivByteS(r, b, P)` (R102). -/
def divByteS (p : Word) (r : Word) (b : Byte) : Word := msbFirst (divStepS p) 8 r b

/-- `DivS(M, n, P, I, F)` (R103). -/
def divS (msg : List Byte) (p init fxor : Word) : Word := msg.foldl (divByteS p) init ^^^ fxor

/-- `DivStepB(r, m, P)` (R105), by mask arithmetic with no branch. -/
def divStepB (p : Word) (r : Word) (m : Bool) : Word :=
  (r <<< 1) ^^^ (mask32 m &&& 1#32) ^^^ (mask32 (r.getLsbD 31) &&& p)

/-- `DivByteB(r, b, P)` (R105). -/
def divByteB (p : Word) (r : Word) (b : Byte) : Word := msbFirst (divStepB p) 8 r b

/-- The Branchless Divider over a whole message (R100, R106). -/
def divB (msg : List Byte) (p init fxor : Word) : Word := msg.foldl (divByteB p) init ^^^ fxor

/-- `DIVS` (R104): its acceptance step in an idle core, an engine step in a running one (log 4). -/
def execDivs (s : State) : Host.Outcome State Fault Refusal :=
  if s.status.busy then .next (messageStep (divByteS s.w.poly) (s.w.acc ^^^ s.w.fxor) s)
  else .next (accept .divs false s.init s)

/-- `DIVB` (R106): its acceptance step in an idle core, an engine step in a running one (log 4). -/
def execDivb (s : State) : Host.Outcome State Fault Refusal :=
  if s.status.busy then .next (messageStep (divByteB s.w.poly) (s.w.acc ^^^ s.w.fxor) s)
  else .next (accept .divb false s.init s)

end Sys2Proof.Machine
end

