-- ==== Sys2Proof/Machine/HwEval.lean ====
section
/-! DEFINITION. The Hardware-Accelerated Evaluator and the command `HWEVAL` (42_hw_eval.md). -/

namespace Sys2Proof.Machine

/-- `n` bit steps of the reflected update, the test on bit 0 before the shift (R142). -/
def lsbFirst (rp : Word) : Nat → Word → Word
  | 0, r => r
  | n + 1, r => lsbFirst rp n ((r >>> 1) ^^^ (mask32 (r.getLsbD 0) &&& rp))

/-- `HwByte(r, b)` for the parameters `HW_POLY` and `HW_REFLECT` (R142). -/
def hwByte (poly : Word) (reflect : Bool) (r : Word) (b : Byte) : Word :=
  if reflect then lsbFirst (bitrev32 poly) 8 (r ^^^ zext32 b) else divByteS poly r b

/-- The fixed-polynomial evaluator over a whole message (R143). -/
def hwEval (poly : Word) (reflect : Bool) (msg : List Byte) (init fxor : Word) : Word :=
  msg.foldl (hwByte poly reflect) init ^^^ fxor

/-- `HWEVAL` (R143): its acceptance step in an idle core, an engine step in a running one (log 4). -/
def execHweval (s : State) : Host.Outcome State Fault Refusal :=
  if s.status.busy then
    .next (messageStep (hwByte s.params.hwPoly s.params.hwReflect) (s.w.acc ^^^ s.w.fxor) s)
  else .next (accept .hweval false s.init s)

end Sys2Proof.Machine
end

