-- ==== Sys2Proof/Machine/Table.lean ====
section
/-! DEFINITION. The Table Builder, the Table-Driven Evaluator, and the commands `TBUILD` and `TEVAL` (41_table.md). -/

namespace Sys2Proof.Machine

/-- Entry `i` of `BuildTable(P, S)` (R121): the byte `i` through a divider from 0 with final mask 0. -/
def tableEntry (strategy : Bool) (p : Word) (i : Byte) : Word :=
  if strategy then divByteS p 0#32 i ^^^ 0#32 else divByteB p 0#32 i ^^^ 0#32

/-- `BuildTable(P, S)` (R121). -/
def buildTable (strategy : Bool) (p : Word) : Vector Word 256 :=
  Vector.ofFn fun i => tableEntry strategy p (BitVec.ofNat 8 i.val)

/-- One engine step of `TBUILD`: the entry at `w[K][7:0]` is written (R122). -/
def tableStep (s : State) : State :=
  { s with
    tbl := tblSet s.tbl (s.w.k.setWidth 8) (tableEntry s.w.s s.w.poly (s.w.k.setWidth 8))
    w := { s.w with k := s.w.k + 1#32 } }

/-- `TBUILD` (R122): its acceptance step in an idle core, an engine step in a running one (log 4).
It has no error and reads no message memory. -/
def execTbuild (strategy : Bool) (s : State) : Host.Outcome State Fault Refusal :=
  if s.status.busy then
    if s.w.k < 256#32 then .next (tableStep s) else .next (completeTable s)
  else .next (accept (.tbuild strategy) true s.w.acc s)

/-- `TblByte(r, b, T)` (R125). -/
def tblByte (t : Vector Word 256) (r : Word) (b : Byte) : Word :=
  (r <<< 8) ^^^ tblGet t (b ^^^ r.extractLsb' 24 8)

/-- The Table-Driven Evaluator over a whole message: from 0, with no final mask (R126, R127). -/
def tblEval (t : Vector Word 256) (msg : List Byte) : Word := msg.foldl (tblByte t) 0#32

/-- `TEVAL` (R126): in an idle core its acceptance step, or the error `TABLE_INVALID` where no table is
valid (R161, R163); in a running core an engine step (log 4). -/
def execTeval (s : State) : Host.Outcome State Fault Refusal :=
  if s.status.busy then .next (messageStep (tblByte s.tbl) s.w.acc s)
  else if s.status.tvalid then .next (accept .teval false 0#32 s)
  else .next (raise .tableInvalid (beginAcceptance s))

end Sys2Proof.Machine
end

