-- ==== Sys2Proof/Machine/Dispatch.lean ====
section
/-! DEFINITION. One arm per command. exec i s is one atomic step of command i: its acceptance step where no command runs
(60_exceptions.md R161), one engine step of it where one runs (R201; log 4). -/

namespace Sys2Proof.Machine

def exec (i : Instr) (s : State) : Host.Outcome State Fault Refusal :=
  match i with
  | .divs => Sys2Proof.Machine.execDivs s
  | .divb => Sys2Proof.Machine.execDivb s
  | .tbuild strategy => Sys2Proof.Machine.execTbuild strategy s
  | .teval => Sys2Proof.Machine.execTeval s
  | .hweval => Sys2Proof.Machine.execHweval s

end Sys2Proof.Machine
end

