-- ==== Sys2Proof/Machine/Agents.lean ====
section
/-! DEFINITION. What one step of each agent does: a host access, an engine step, reset, a write by another bus master
(10_state.md R20; 20_memory.md R74; 60_exceptions.md R161, R168, R169; 70_reset_and_hazards.md R191). -/

namespace Sys2Proof.Machine

/-- A host write of `c` to `CMD`, by the priority of R169: lost while a command runs (R168), else accepted and
decoded (R161), an illegal word ending in `ILLEGAL_CMD` (R162). -/
def presentCommand (c : Word) (s : State) : Host.Outcome State Fault Refusal :=
  if s.status.busy then .next (loseCommand s)
  else
    match decode c with
    | .error _ => .next (raise .illegalCmd (beginAcceptance s))
    | .ok i => exec i s

/-- A host write (R22 to R39). -/
def hostWrite (a : Access) (v : Word) (s : State) : Host.Outcome State Fault Refusal :=
  match resolve s.params.crcBase a with
  | .error r => .refused r
  | .ok r => if r = .cmd then presentCommand v s else .next (writeReg v s r)

/-- A host read: its data leaves on the register port, and nothing else changes (R25; log 13). -/
def hostRead (a : Access) (s : State) : Host.Outcome State Fault Refusal :=
  match resolve s.params.crcBase a with
  | .error r => .refused r
  | .ok r => .next { s with hostReads := (a.addr, readReg s r) :: s.hostReads }

/-- One engine step: of the command that `w[OP]` and `w[S]` name while one runs, and none while the
engine is idle (R45, R193; log 11). That an idle step keeps the working registers is DESIGN CHOICE (U2; log 23). -/
def engineStep (s : State) : Host.Outcome State Fault Refusal :=
  if s.status.busy then
    match commandOf s.w.op s.w.s with
    | .error _ => .fault .corruptOpcode
    | .ok i => exec i s
  else .next s

/-- The working registers after a reset: free values (U2; log 8). -/
def workingAfterReset (n : Nat) : Working :=
  { op := (Config.afterReset n 256).setWidth 4
    s := (Config.afterReset n 257).getLsbD 0
    k := Config.afterReset n 258
    acc := Config.afterReset n 259
    poly := Config.afterReset n 260
    init := Config.afterReset n 261
    fxor := Config.afterReset n 262
    addr := Config.afterReset n 263
    len := Config.afterReset n 264 }

/-- The table RAM after a reset: free values (R192, U1; log 8). -/
def tableAfterReset (n : Nat) : Vector Word 256 :=
  Vector.ofFn fun i => Config.afterReset n i.val

/-- `rst` (R191): every register gets its value of R48, a running command is abandoned. The platform
(parameters, memory, the schedule and the record of past traffic) is not the core's and stays (log 8). -/
def rstStep (s : State) : State :=
  { State.reset with
    params := s.params
    tbl := tableAfterReset s.draws
    w := workingAfterReset s.draws
    mem := s.mem
    unsynced := s.unsynced
    msgReads := s.msgReads
    hostReads := s.hostReads
    draws := s.draws + 1
    events := s.events }

/-- A bus master other than the core writes a byte of message memory; the byte it replaces stays a
value the engine may read until the write is made visible (R74) and, while a command runs, until its
completion (R196; log 9). -/
def busWrite (a : Word) (b : Byte) (s : State) : State :=
  { s with
    mem := s.mem.write a.toNat b
    unsynced := (a.toNat, s.mem.read a.toNat) :: s.unsynced
    window := if s.status.busy then (a.toNat, s.mem.read a.toNat) :: s.window else s.window }

/-- Every earlier write becomes visible at the read port. A command that already runs may still read the
older bytes: they were to be visible before its `CMD` write (R74). -/
def makeVisible (s : State) : State :=
  { s with
    unsynced := []
    window := if s.status.busy then s.unsynced ++ s.window else s.window }

/-- One step of the agent that an event names. -/
def agentStep (e : Event) (s : State) : Host.Outcome State Fault Refusal :=
  match e with
  | .hostRead a => hostRead a s
  | .hostWrite a v => hostWrite a v s
  | .engine => engineStep s
  | .rst => .next (rstStep s)
  | .busWrite a b => .next (busWrite a b s)
  | .makeVisible => .next (makeVisible s)

/-- The event the machine takes next. Where the schedule is empty it is an engine step, so that an
accepted command reaches its completion (R201; log 3). -/
def nextEvent (s : State) : Event := s.events.headD .engine

/-- The state with the next event taken off the schedule. -/
def takeEvent (s : State) : State := { s with events := s.events.tail }

/-- The state whose next step presents command word `c` to an idle core (log 19). -/
def presentNext (c : Word) (s : State) : State :=
  { s with
    status := { s.status with busy := false }
    events := .hostWrite (Reg.cmd.access s.params.crcBase) c :: s.events }

end Sys2Proof.Machine
end

