-- ==== Sys2Proof/Machine/Step.lean ====
section
/-! DEFINITION. One step of the machine: the next event of the schedule (10_state.md R20; log 2). -/

namespace Sys2Proof.Machine

/-- One atomic step of one agent. -/
def step (s : State) : Host.Outcome State Fault Refusal :=
  agentStep (nextEvent s) (takeEvent s)

/-- The state whose next step runs the instruction with bits `w`, numbered as spec/opcode_table.json
numbers them: a host write of that word to `CMD` is the next event, and the core is idle (log 18, log 19). -/
def State.withFetchWord (s : State) (nbits w : Nat) : State :=
  presentNext (wordOfTableBits nbits w) s

end Sys2Proof.Machine
end

