-- ==== Sys2Proof/Safety.lean ====
section
/-! DEFINITION. The terms in which claims about the CRC32 core are stated: the invariant of its state, the message of a
command, a schedule that leaves a command alone, and the value the spec gives a command. -/

namespace Sys2Proof.Machine

/-- What holds of every state a run reaches. -/
structure Invariant (s : State) : Prop where
  /-- The memory is in canonical form. -/
  memory : Memory.wf s.mem
  /-- "`ECODE` is 0 whenever `ERR` is 0" (R31). -/
  ecodeZero : s.status.err = false → s.status.ecode = 0#4
  /-- Codes 0 and 4 to 15 are never raised (R166, U11). -/
  ecodeRaised : s.status.err = true →
    s.status.ecode = 1#4 ∨ s.status.ecode = 2#4 ∨ s.status.ecode = 3#4
  /-- "`BUSY = 1` implies `DONE = 0` and `ERR = 0`" (R31). -/
  busyClean : s.status.busy = true → s.status.done = false ∧ s.status.err = false
  /-- The running command is one of the five (R45). -/
  running : s.status.busy = true → ∃ i, commandOf s.w.op s.w.s = .ok i
  /-- `w[K]` never exceeds `w[LEN]`, or 256 for `TBUILD` (R45). -/
  index : s.status.busy = true → if s.w.op = 3#4 then s.w.k ≤ 256#32 else s.w.k ≤ s.w.len
  /-- `TVALID` is 0 while `TBUILD` runs (R43). -/
  building : s.status.busy = true → s.w.op = 3#4 → s.status.tvalid = false
  /-- `TEVAL` runs only on a valid table (R163). -/
  evaluating : s.status.busy = true → s.w.op = 4#4 → s.status.tvalid = true
  /-- The entries that a running `TBUILD` has written are the identity's (R123). -/
  built : s.status.busy = true → s.w.op = 3#4 →
    ∀ i : Byte, i.toNat < s.w.k.toNat → tblGet s.tbl i = zext32 i
  /-- A valid table is complete, and it is the identity table (R43, R123). -/
  table : s.status.tvalid = true → ∀ i : Byte, tblGet s.tbl i = zext32 i

/-- Bytes `0` to `n - 1` of the message at `addr` (20_memory.md R63). -/
def messageBytes (m : Memory) (addr : Word) (n : Nat) : List Byte :=
  (List.range n).map fun k => m.read (addr + BitVec.ofNat 32 k).toNat

/-- The message that a command accepted in `s` reads. -/
def State.message (s : State) : List Byte := messageBytes s.mem s.addr s.len.toNat

/-- The addresses of the first `n` reads of a message at `addr`, newest first. -/
def readAddresses (addr : Word) (n : Nat) : List Word :=
  ((List.range n).map fun k => addr + BitVec.ofNat 32 k).reverse

/-- No byte of the message that a command accepted in `s` reads answers with a bus error. -/
def State.messageReadable (s : State) : Prop :=
  ∀ k < s.len.toNat, busErrAt s.params (s.addr + BitVec.ofNat 32 k) = false

/-- An event that changes message memory. -/
def Event.writesMemory : Event → Bool
  | .busWrite _ _ => true
  | .hostRead _ => false
  | .hostWrite _ _ => false
  | .engine => false
  | .rst => false
  | .makeVisible => false

/-- The host keeps the message rule of R74 and R196: every earlier write is visible, and no byte of
memory is written while what is scheduled happens. -/
def State.settled (s : State) : Prop :=
  s.unsynced = [] ∧ ∀ e ∈ s.events, e.writesMemory = false

/-- An access that has a step (R23). -/
def Access.supported (base : Word) (a : Access) : Bool :=
  match resolve base a with
  | .ok _ => true
  | .error _ => false

/-- An event that leaves a running command alone: any register access with a step, an engine step, and
making writes visible; not a reset, and not a write to message memory (R196, R201). -/
def Event.harmless (base : Word) : Event → Bool
  | .hostRead a => a.supported base
  | .hostWrite a _ => a.supported base
  | .engine => true
  | .rst => false
  | .busWrite _ _ => false
  | .makeVisible => true

/-- `n` steps of command `i` with no other agent between them: its acceptance, its engine steps and its
completion. -/
def runCommand (i : Instr) : Nat → State → Host.Outcome State Fault Refusal
  | 0, s => .next s
  | n + 1, s =>
    match exec i s with
    | .next t => runCommand i n t
    | .fault r => .fault r
    | .refused r => .refused r

/-- `n` steps of the machine, stopping at the first fault or refusal: `Host.Core.run` of this machine. -/
def runSteps : Nat → State → Host.Outcome State Fault Refusal
  | 0, s => .next s
  | n + 1, s =>
    match step s with
    | .next t => runSteps n t
    | .fault r => .fault r
    | .refused r => .refused r

/-- The value that a command accepted in `s` writes to `RESULT` where no read of its fails: R104, R106,
R126, R143. `TBUILD` does not change `RESULT` (R122). -/
def commandValue (i : Instr) (s : State) : Word :=
  match i with
  | .divs => divS s.message s.poly s.init s.fxor
  | .divb => divB s.message s.poly s.init s.fxor
  | .tbuild _ => s.result
  | .teval => tblEval s.tbl s.message
  | .hweval => hwEval s.params.hwPoly s.params.hwReflect s.message s.init s.fxor

/-- A command that reads the message and writes `RESULT` (R83). -/
def readsMessage : Instr → Bool
  | .divs => true
  | .divb => true
  | .tbuild _ => false
  | .teval => true
  | .hweval => true

/-- The update of a command that reads the message, over the working registers of `s`: R102, R105, R125, R142. -/
def byteUpdate (i : Instr) (s : State) : Word → Byte → Word :=
  match i with
  | .divs => divByteS s.w.poly
  | .divb => divByteB s.w.poly
  | .tbuild _ => fun r _ => r
  | .teval => tblByte s.tbl
  | .hweval => hwByte s.params.hwPoly s.params.hwReflect

/-- What the completion of a command that reads the message writes to `RESULT`: R104, R106, R126, R143. -/
def finalValue (i : Instr) (s : State) : Word :=
  match i with
  | .divs => s.w.acc ^^^ s.w.fxor
  | .divb => s.w.acc ^^^ s.w.fxor
  | .tbuild _ => s.result
  | .teval => s.w.acc
  | .hweval => s.w.acc ^^^ s.w.fxor

/-- Command `i`, alone from an idle state `s`, runs its `w[LEN] + 2` steps and completes with `v` in `RESULT`.
It has read each byte of the message once, in order, and of the registers it has changed `RESULT`, `STATUS`
and the hidden working registers, nothing else. -/
def CompletesWith (i : Instr) (s : State) (v : Word) : Prop :=
  ∃ t, runCommand i (s.len.toNat + 2) s = .next t ∧
    t = { s with
      result := v
      status := { busy := false, done := true, err := false, cmdLost := s.status.cmdLost,
                  ecode := 0#4, tvalid := s.status.tvalid }
      w := t.w
      window := []
      msgReads := readAddresses s.addr s.len.toNat ++ s.msgReads }

/-- How many engine steps a command takes before its completion step where no read fails (R201). -/
def engineSteps (i : Instr) (s : State) : Nat :=
  match i with
  | .divs => s.len.toNat
  | .divb => s.len.toNat
  | .tbuild _ => 256
  | .teval => s.len.toNat
  | .hweval => s.len.toNat

/-- The running command's next engine step is its completion step. -/
def completionDue (i : Instr) (s : State) : Prop :=
  s.status.busy = true ∧ if readsMessage i then ¬ s.w.k < s.w.len else ¬ s.w.k < 256#32

end Sys2Proof.Machine
end

