-- ==== Sys2Proof/Algebra.lean ====
section
/-! DEFINITION. Words and messages as polynomials over GF(2), for the statements of 40_dividers.md R109 and
42_hw_eval.md R145. The machine does not use this file. -/

namespace Sys2Proof.Machine

open Polynomial

/-- `v(x) = sum of v[i] x^i` (R109). -/
noncomputable def wordPoly (v : Word) : (ZMod 2)[X] :=
  ∑ i ∈ Finset.range 32, if v.getLsbD i then X ^ i else 0

/-- `G(x) = x^32 + P(x)` (R109). -/
noncomputable def generator (p : Word) : (ZMod 2)[X] := X ^ 32 + wordPoly p

/-- Message bit `m_j`: bit `7 - (j mod 8)` of byte `floor(j / 8)` (R109). -/
def messageBit (msg : List Byte) (j : Nat) : Bool := (msg.getD (j / 8) 0#8).getLsbD (7 - j % 8)

/-- `M(x) = sum over j from 0 to 8n-1 of m_j x^(8n-1-j)` (R109). -/
noncomputable def messagePoly (msg : List Byte) : (ZMod 2)[X] :=
  ∑ j ∈ Finset.range (8 * msg.length),
    if messageBit msg j then X ^ (8 * msg.length - 1 - j) else 0

/-- A message with the bits of every byte reversed (R145). -/
def reverseBytes (msg : List Byte) : List Byte := msg.map BitVec.reverse

/-- Bytes packed into a word, the first byte highest; of more than four, the last four (R111). -/
def pack (bytes : List Byte) : Word := bytes.foldl (fun r b => (r <<< 8) ||| zext32 b) 0#32

end Sys2Proof.Machine
end

