-- ==== Sys2Proof/Certificates/Slice0/Obligations.lean ====
section
/-! DEFINITION. The statements about the CRC32 core, from the numbered rules of spec/. -/

open Sys2Proof Sys2Proof.Machine

section Encoding

/-- The six legal words of R84, written out, and one word of each kind of illegal encoding. -/
def Obligations.DecoderReadsTheTableWords : Prop :=
  decode 0x00000001#32 = .ok .divs ∧ decode 0x00000002#32 = .ok .divb ∧
  decode 0x00000003#32 = .ok (.tbuild false) ∧ decode 0x00000013#32 = .ok (.tbuild true) ∧
  decode 0x00000004#32 = .ok .teval ∧ decode 0x00000005#32 = .ok .hweval ∧
  decodeTableWord 32 0x13 = some (.tbuild true) ∧
  decode 0x00000000#32 = .error .opcode ∧ decode 0x00000006#32 = .error .opcode ∧
  decode 0x00000011#32 = .error .strategyBit ∧ decode 0x80000001#32 = .error .reservedBits

/-- R84 and R162: the decoder accepts exactly the six words, over all 2^32, and an accepted illegal word ends
with `ILLEGAL_CMD` and changes nothing but `STATUS`. Of the working registers of an idle core, which may hold any
value (U2), it says nothing; see `WorkingRegistersStayBetweenCommands`. -/
def Obligations.ExactlySixWordsAreLegal : Prop :=
  (∀ (c : Word) (i : Instr), decode c = .ok i ↔
    (c = 0x00000001#32 ∧ i = .divs) ∨ (c = 0x00000002#32 ∧ i = .divb) ∨
    (c = 0x00000003#32 ∧ i = .tbuild false) ∨ (c = 0x00000013#32 ∧ i = .tbuild true) ∨
    (c = 0x00000004#32 ∧ i = .teval) ∨ (c = 0x00000005#32 ∧ i = .hweval)) ∧
  ∀ (c : Word) (s : State), s.status.busy = false → (∀ i, decode c ≠ .ok i) →
    ∃ t, presentCommand c s = .next t ∧
      t = { s with
        status := { busy := false, done := true, err := true, cmdLost := s.status.cmdLost,
                    ecode := 1#4, tvalid := s.status.tvalid }
        w := t.w }

/-- Decoder and encoder agree in both directions, on every word and through its byte lanes. -/
def Obligations.DecodeAndEncodeAgree : Prop :=
  (∀ c : Word, decodeBytes (lanesOfWord c) = decode c) ∧
  (∀ (c : Word) (i : Instr), decodeBytes (lanesOfWord c) = .ok i ↔ c = encode i) ∧
  ∀ i : Instr, i.wellFormed = true → decodeTableWord 32 (encode i).toNat = some i

/-- R87: the assembler accepts exactly these seven lines, and an absent `TBUILD` operand means `S = 0`. -/
def Obligations.AssemblerAcceptsExactlySevenLines : Prop :=
  ∀ (l : AsmLine) (i : Instr), l.assemble = some i ↔
    (l = ⟨"DIVS", none⟩ ∧ i = .divs) ∨ (l = ⟨"DIVB", none⟩ ∧ i = .divb) ∨
    (l = ⟨"TBUILD", none⟩ ∧ i = .tbuild false) ∨ (l = ⟨"TBUILD", some 0⟩ ∧ i = .tbuild false) ∨
    (l = ⟨"TBUILD", some 1⟩ ∧ i = .tbuild true) ∨ (l = ⟨"TEVAL", none⟩ ∧ i = .teval) ∨
    (l = ⟨"HWEVAL", none⟩ ∧ i = .hweval)

end Encoding

section Steps

/-- A step runs the decoded command. A scheduled host write of a legal word to `CMD` of an idle core, a
scheduled engine step of a running command, and a step with an empty schedule are `exec` of that command
on the state with the event taken off the schedule, and nothing around it. The schedule is the model's choice
(log 2), and so are an engine step for an empty schedule (log 3) and `withFetchWord` (log 19). -/
def Obligations.StepRunsTheDecodedCommand : Prop :=
  ∀ (s : State) (i : Instr),
    (∀ a c rest, s.events = .hostWrite a c :: rest → resolve s.params.crcBase a = .ok .cmd →
      s.status.busy = false → decode c = .ok i → step s = exec i { s with events := rest }) ∧
    (∀ rest, s.events = .engine :: rest → s.status.busy = true →
      commandOf s.w.op s.w.s = .ok i → step s = exec i { s with events := rest }) ∧
    (s.events = [] → s.status.busy = true → commandOf s.w.op s.w.s = .ok i → step s = exec i s) ∧
    step (s.withFetchWord 32 (encode i).toNat) =
      exec i { s with status := { s.status with busy := false } }

/-- Acceptance of a legal command (R161), for every command, where `TEVAL` needs a valid table: `BUSY` is
set, `DONE`, `ERR`, `ECODE` cleared, the operands snapshotted, the opcode and strategy recorded; every
host-visible register but `STATUS`, the table and all of memory are unchanged. That the race window opens is
the model's (log 9). -/
def Obligations.AcceptanceSnapshotsTheOperands : Prop :=
  ∀ (i : Instr) (s : State), s.status.busy = false → (i = .teval → s.status.tvalid = true) →
    ∃ t, exec i s = .next t ∧ t.eng = .run ∧
      t.status.done = false ∧ t.status.err = false ∧ t.status.ecode = 0#4 ∧
      t.status.cmdLost = s.status.cmdLost ∧
      ((∃ b, i = .tbuild b) → t.status.tvalid = false) ∧
      ((∀ b, i ≠ .tbuild b) → t.status.tvalid = s.status.tvalid) ∧
      t.w.poly = s.poly ∧ t.w.init = s.init ∧ t.w.fxor = s.fxor ∧ t.w.addr = s.addr ∧
      t.w.len = s.len ∧ t.w.op = opcodeOf i ∧ t.w.s = strategyOf i ∧
      t = { s with status := t.status, w := t.w, window := [] }

/-- R168: a `CMD` write while a command runs only sets `CMDLOST`, which stays 1 until the host clears it or
reset. -/
def Obligations.CommandWhileBusyIsLost : Prop :=
  (∀ (s : State) (c : Word), s.status.busy = true →
    presentCommand c s = .next { s with status := { s.status with cmdLost := true } }) ∧
  ∀ (e : Event) (s t : State), agentStep e s = .next t → s.status.cmdLost = true →
    t.status.cmdLost = false →
    e = .rst ∨ ∃ a v, e = .hostWrite a v ∧ resolve s.params.crcBase a = .ok .status ∧
      v.getLsbD 3 = true

/-- R163: `TEVAL` without a valid table is refused at acceptance with code 2; nothing is read and nothing but
`STATUS` changes. That the working registers keep their values is the model's choice (log 23). -/
def Obligations.TevalNeedsAValidTable : Prop :=
  ∀ s : State, s.status.busy = false → s.status.tvalid = false →
    exec .teval s = .next { s with
      status := { busy := false, done := true, err := true, cmdLost := s.status.cmdLost,
                  ecode := 2#4, tvalid := false } }

/-- One engine step over a message byte whose read neither fails nor races: the byte at
`(w[ADDR] + w[K]) mod 2^32` is read once, the accumulator takes the command's update, `w[K]` rises by 1, and
nothing else changes; all of memory reads as before. The record of the read and what races are the model's
(log 9, log 13). -/
def Obligations.MessageByteUpdatesTheAccumulator : Prop :=
  ∀ s : State, s.status.busy = true → s.w.k < s.w.len →
    busErrAt s.params (s.w.addr + s.w.k) = false → s.raceValues (s.w.addr + s.w.k) = [] →
    let b := s.mem.read (s.w.addr + s.w.k).toNat
    let after := fun acc : Word => { s with
      w := { s.w with acc := acc, k := s.w.k + 1#32 }
      msgReads := (s.w.addr + s.w.k) :: s.msgReads }
    exec .divs s = .next (after (divByteS s.w.poly s.w.acc b)) ∧
    exec .divb s = .next (after (divByteB s.w.poly s.w.acc b)) ∧
    exec .teval s = .next (after (tblByte s.tbl s.w.acc b)) ∧
    exec .hweval s = .next (after (hwByte s.params.hwPoly s.params.hwReflect s.w.acc b))

/-- One engine step of `TBUILD`: the entry at `w[K][7:0]` becomes the identity's (R122, R123), every other
entry is unchanged, `w[K]` rises by 1, and nothing else changes. -/
def Obligations.TableStepWritesOneEntry : Prop :=
  ∀ (s : State) (strategy : Bool), s.status.busy = true → s.w.k < 256#32 →
    ∃ t, exec (.tbuild strategy) s = .next t ∧
      (∀ j : Byte, tblGet t.tbl j =
        if j = s.w.k.setWidth 8 then zext32 j else tblGet s.tbl j) ∧
      t = { s with tbl := t.tbl, w := { s.w with k := s.w.k + 1#32 } }

/-- R164: the completion step of each of the five commands writes the command's own result, sets `DONE` and
clears `BUSY`, and changes nothing else. Of the working registers, which then may hold any value (U2), it says
nothing; see `WorkingRegistersStayBetweenCommands`. -/
def Obligations.CompletionWritesTheResult : Prop :=
  ∀ s : State, s.status.busy = true →
    (¬ s.w.k < s.w.len →
      let completes := fun (i : Instr) (v : Word) => ∃ t, exec i s = .next t ∧ t = { s with
        result := v, status := { s.status with done := true, busy := false }, w := t.w }
      completes .divs (s.w.acc ^^^ s.w.fxor) ∧ completes .divb (s.w.acc ^^^ s.w.fxor) ∧
      completes .teval s.w.acc ∧ completes .hweval (s.w.acc ^^^ s.w.fxor)) ∧
    (¬ s.w.k < 256#32 → ∀ strategy : Bool, ∃ t, exec (.tbuild strategy) s = .next t ∧
      t = { s with
        status := { s.status with done := true, busy := false, tvalid := true }, w := t.w })

/-- R167: the first failing read ends the command in the same step, with code 3 and the address in `FADDR`;
`RESULT` keeps its value and the engine then does nothing more. Where the failing address also races, the
read counts one free value; that count and the record of the read are the model's (log 9, log 13).
Of the working registers, which then may hold any value (U2), it says nothing; see
`WorkingRegistersStayBetweenCommands`. -/
def Obligations.FailingReadEndsTheCommand : Prop :=
  ∀ (i : Instr) (s : State), readsMessage i = true → s.status.busy = true → s.w.k < s.w.len →
    busErrAt s.params (s.w.addr + s.w.k) = true →
    ∃ t, exec i s = .next t ∧
      t = { s with
        faddr := s.w.addr + s.w.k
        status := { s.status with ecode := 3#4, err := true, done := true, busy := false }
        w := t.w
        msgReads := (s.w.addr + s.w.k) :: s.msgReads
        draws := t.draws } ∧
      ∃ u, engineStep t = .next u ∧ u = { t with w := u.w }

/-- The frame of the five commands, in every state: which registers, table entries and bytes no command
changes, and when the ones that some command changes can change. That the snapshot outlasts the completion is the
model's choice (log 23). -/
def Obligations.CommandsChangeOnlyTheirResults : Prop :=
  ∀ (i : Instr) (s t : State), exec i s = .next t →
    t.params = s.params ∧ t.ie = s.ie ∧ t.poly = s.poly ∧ t.init = s.init ∧ t.fxor = s.fxor ∧
    t.addr = s.addr ∧ t.len = s.len ∧ t.idx = s.idx ∧ (∀ a, t.mem.read a = s.mem.read a) ∧
    t.hostReads = s.hostReads ∧ t.events = s.events ∧ t.status.cmdLost = s.status.cmdLost ∧
    (t.result ≠ s.result → s.status.busy = true ∧ readsMessage i = true ∧ ¬ s.w.k < s.w.len) ∧
    (t.faddr ≠ s.faddr → s.status.busy = true ∧ readsMessage i = true ∧ s.w.k < s.w.len ∧
      busErrAt s.params (s.w.addr + s.w.k) = true) ∧
    (t.tbl ≠ s.tbl → s.status.busy = true ∧ readsMessage i = false ∧ s.w.k < 256#32) ∧
    (t.status.tvalid ≠ s.status.tvalid → readsMessage i = false) ∧
    (s.status.busy = true → t.w.poly = s.w.poly ∧ t.w.init = s.w.init ∧ t.w.fxor = s.w.fxor ∧
      t.w.addr = s.w.addr ∧ t.w.len = s.w.len ∧ t.w.op = s.w.op ∧ t.w.s = s.w.s)

end Steps

section Arithmetic

/-- R101, bit by bit: bit 0 takes the message bit, bit `i` takes bit `i - 1`, and the polynomial is applied
exactly when bit 31 was set before the shift, whatever the message bit. -/
def Obligations.BitSerialStepBits : Prop :=
  ∀ (p r : Word) (m : Bool) (i : Nat), i < 32 →
    (divStepS p r m).getLsbD i =
      ((if i = 0 then m else r.getLsbD (i - 1)) ^^ (r.getLsbD 31 && p.getLsbD i))

/-- R102: a byte is consumed from bit 7 to bit 0. -/
def Obligations.ByteIsConsumedTopBitFirst : Prop :=
  ∀ (p r : Word) (b : Byte),
    divByteS p r b = [b.getLsbD 7, b.getLsbD 6, b.getLsbD 5, b.getLsbD 4, b.getLsbD 3,
      b.getLsbD 2, b.getLsbD 1, b.getLsbD 0].foldl (divStepS p) r

/-- R107: the two dividers are equal on every bit step, byte step and message. -/
def Obligations.DividersAreEquivalent : Prop :=
  (∀ (p r : Word) (m : Bool), divStepB p r m = divStepS p r m) ∧
  (∀ (p r : Word) (b : Byte), divByteB p r b = divByteS p r b) ∧
  ∀ (msg : List Byte) (p init fxor : Word), divB msg p init fxor = divS msg p init fxor

/-- R109: the divider computes `((I(x) x^(8n) + M(x)) mod G(x)) + F(x)` over GF(2), one bit step computes
`(r(x) x + m) mod G(x)`, and over the message followed by four zero bytes, from 0 with no mask, the divider
computes the augmented remainder `M(x) x^32 mod G(x)`. -/
def Obligations.DividerIsPolynomialRemainder : Prop :=
  (∀ (msg : List Byte) (p init fxor : Word),
    wordPoly (divS msg p init fxor) =
      (wordPoly init * Polynomial.X ^ (8 * msg.length) + messagePoly msg) %ₘ generator p +
        wordPoly fxor) ∧
  (∀ (p r : Word) (m : Bool),
    wordPoly (divStepS p r m) =
      (wordPoly r * Polynomial.X + if m then 1 else 0) %ₘ generator p) ∧
  ∀ (msg : List Byte) (p : Word),
    wordPoly (divS (msg ++ [0#8, 0#8, 0#8, 0#8]) p 0#32 0#32) =
      (messagePoly msg * Polynomial.X ^ 32) %ₘ generator p

/-- R111: the polynomials 0 and 1. -/
def Obligations.CornerPolynomials : Prop :=
  (∀ (msg : List Byte) (init : Word), 4 ≤ msg.length →
    divS msg 0#32 init 0#32 = pack (msg.drop (msg.length - 4))) ∧
  (∀ (msg : List Byte) (init : Word), msg.length < 4 →
    divS msg 0#32 init 0#32 = (init <<< (8 * msg.length)) ||| pack msg) ∧
  ∀ (r : Word) (m : Bool), divStepS 1#32 r m = ((r <<< 1) ||| (r >>> 31)) ^^^ zextBit m

/-- R123: every entry of every built table is its index, for both strategies. -/
def Obligations.BuiltTableIsTheIdentity : Prop :=
  ∀ (strategy : Bool) (p : Word) (i : Byte),
    tableEntry strategy p i = zext32 i ∧ tblGet (buildTable strategy p) i = zext32 i

/-- R128: on a built table the update rotates by 8 and XORs the byte in, and the result never depends on the
polynomial of the build. -/
def Obligations.TableByteRotates : Prop :=
  (∀ (strategy : Bool) (p r : Word) (b : Byte),
    tblByte (buildTable strategy p) r b = ((r <<< 8) ||| (r >>> 24)) ^^^ zext32 b) ∧
  ∀ (strategy strategy' : Bool) (p p' : Word) (msg : List Byte),
    tblEval (buildTable strategy p) msg = tblEval (buildTable strategy' p') msg

/-- R129: where the source's table consistency holds, and the values where it fails. -/
def Obligations.TableConsistencyHoldsInPart : Prop :=
  (∀ (strategy : Bool) (p : Word) (msg : List Byte), msg.length ≤ 4 →
    tblEval (buildTable strategy p) msg = pack msg ∧ divS msg p 0#32 0#32 = pack msg) ∧
  (∀ (r : Word) (b : Byte), divByteS 1#32 r b = ((r <<< 8) ||| (r >>> 24)) ^^^ zext32 b) ∧
  (∀ (strategy : Bool) (msg : List Byte),
    tblEval (buildTable strategy 1#32) msg = divS msg 1#32 0#32 0#32) ∧
  (∀ strategy : Bool,
    tblEval (buildTable strategy 0x04C11DB7#32) [0xA0#8, 0xA1#8, 0xA2#8, 0xA3#8, 0xA4#8] =
      0xA1A2A304#32 ∧
    tblEval (buildTable strategy 0x04C11DB7#32) [0x49#8, 0x20#8, 0x6C#8, 0x6F#8, 0x76#8, 0x65#8,
      0x20#8, 0x70#8, 0x69#8, 0x7A#8, 0x7A#8, 0x61#8, 0x21#8] = 0x3F367E77#32) ∧
  divS [0xA0#8, 0xA1#8, 0xA2#8, 0xA3#8, 0xA4#8] 0x04C11DB7#32 0#32 0#32 = 0x508DF5AA#32 ∧
  divS [0x49#8, 0x20#8, 0x6C#8, 0x6F#8, 0x76#8, 0x65#8, 0x20#8, 0x70#8, 0x69#8, 0x7A#8, 0x7A#8,
    0x61#8, 0x21#8] 0x04C11DB7#32 0#32 0#32 = 0x6536CC44#32

/-- R142: the two bit orders of the fixed-polynomial update, and the reversal it uses. -/
def Obligations.FixedPolynomialUpdate : Prop :=
  (∀ (p r : Word) (b : Byte), hwByte p false r b = divByteS p r b) ∧
  (∀ (p r : Word) (b : Byte), hwByte p true r b =
    (fun x : Word => (x >>> 1) ^^^ (if x.getLsbD 0 then bitrev32 p else 0#32))^[8]
      (r ^^^ zext32 b)) ∧
  (∀ (v : Word) (i : Nat), i < 32 → (bitrev32 v).getLsbD i = v.getLsbD (31 - i)) ∧
  bitrev32 0x1EDC6F41#32 = 0x82F63B78#32

/-- R145: the reflected evaluator over GF(2), its relation to the divider, and that it is not the divider. -/
def Obligations.ReflectedEvaluatorIsPolynomialRemainder : Prop :=
  (∀ (msg : List Byte) (p init fxor : Word), ∃ v : Word,
    wordPoly v =
      (wordPoly (bitrev32 init) * Polynomial.X ^ (8 * msg.length) +
        messagePoly (reverseBytes msg) * Polynomial.X ^ 32) %ₘ generator p ∧
    hwEval p true msg init fxor = bitrev32 v ^^^ fxor) ∧
  (∀ (msg : List Byte) (p fxor : Word),
    hwEval p true msg 0#32 fxor =
      bitrev32 (divS (reverseBytes msg ++ [0#8, 0#8, 0#8, 0#8]) p 0#32 0#32) ^^^ fxor) ∧
  ∃ (msg : List Byte) (p init fxor : Word), hwEval p true msg init fxor ≠ divS msg p init fxor

end Arithmetic

section Commands

/-- `DIVS` and `DIVB`, alone from an idle core over a readable message that no one changes, complete with the
dividers' values (R104, R106), for every polynomial, seed, mask, address and length. That no one changes the
message is said in the model's terms of visible and scheduled writes (log 9). -/
def Obligations.DividersComputeTheMessage : Prop :=
  ∀ s : State, s.status.busy = false → s.messageReadable → s.settled →
    CompletesWith .divs s (divS s.message s.poly s.init s.fxor) ∧
    CompletesWith .divb s (divB s.message s.poly s.init s.fxor)

/-- `TEVAL` likewise completes with the table-driven value of the table RAM (R126). -/
def Obligations.TevalComputesTheMessage : Prop :=
  ∀ s : State, s.status.busy = false → s.status.tvalid = true → s.messageReadable → s.settled →
    CompletesWith .teval s (tblEval s.tbl s.message)

/-- `HWEVAL` likewise completes with the fixed-polynomial value (R143), for every `HW_POLY` and `HW_REFLECT`. -/
def Obligations.HwevalComputesTheMessage : Prop :=
  ∀ s : State, s.status.busy = false → s.messageReadable → s.settled →
    CompletesWith .hweval s (hwEval s.params.hwPoly s.params.hwReflect s.message s.init s.fxor)

/-- `TBUILD`, alone from an idle core, completes in 258 steps with a valid identity table (R122, R123), for
every polynomial and both strategies; it reads no message byte and leaves `RESULT` and `FADDR`. -/
def Obligations.TbuildBuildsTheIdentityTable : Prop :=
  ∀ (s : State) (strategy : Bool), s.status.busy = false →
    ∃ t, runCommand (.tbuild strategy) 258 s = .next t ∧
      (∀ i : Byte, tblGet t.tbl i = zext32 i) ∧
      t = { s with
        tbl := t.tbl
        status := { busy := false, done := true, err := false, cmdLost := s.status.cmdLost,
                    ecode := 0#4, tvalid := true }
        w := t.w
        window := [] }

/-- Of the message's reads, the first that answers with a bus error ends the command: code 3, its address in
`FADDR`, `RESULT` unchanged, and no read past it (R65, R167, R169). The record of the reads and the count of free
values are the model's (log 9, log 13). -/
def Obligations.FirstBusErrorEndsTheRun : Prop :=
  ∀ (i : Instr) (s : State) (j : Nat), readsMessage i = true → s.status.busy = false →
    (i = .teval → s.status.tvalid = true) → j < s.len.toNat →
    (∀ k < j, busErrAt s.params (s.addr + BitVec.ofNat 32 k) = false) →
    busErrAt s.params (s.addr + BitVec.ofNat 32 j) = true →
    ∃ t, runCommand i (j + 2) s = .next t ∧
      t = { s with
        status := { busy := false, done := true, err := true, cmdLost := s.status.cmdLost,
                    ecode := 3#4, tvalid := s.status.tvalid }
        faddr := s.addr + BitVec.ofNat 32 j
        w := t.w
        window := []
        msgReads := readAddresses s.addr (j + 1) ++ s.msgReads
        draws := t.draws }

/-- R108: the empty message gives `I ^ F` on both dividers, and the commands with `LEN = 0` read nothing and
succeed, whatever address `ADDR` holds. -/
def Obligations.EmptyMessage : Prop :=
  (∀ p init fxor : Word, divS [] p init fxor = init ^^^ fxor ∧ divB [] p init fxor = init ^^^ fxor) ∧
  ∀ (i : Instr) (s : State), i = .divs ∨ i = .divb → s.status.busy = false → s.len = 0#32 →
    ∃ t, runCommand i 2 s = .next t ∧ t.result = s.init ^^^ s.fxor ∧ t.msgReads = s.msgReads ∧
      t.status.done = true ∧ t.status.err = false ∧ t.status.busy = false

/-- The schedule cannot change a command's result. From the `CMD` write to the completion, any accepted host
accesses (to operand registers, `STATUS`, `CTRL`, `TIDX`, and further `CMD` words, which are lost) may fall
between the engine's steps; the result, the table and the reads are those of the operands at acceptance
(R44, R168, R199, R201). -/
def Obligations.InterleavingKeepsTheResult : Prop :=
  ∀ (i : Instr) (s : State) (a : Access) (evs rest : List Event),
    s.status.busy = false → (i = .teval → s.status.tvalid = true) →
    (readsMessage i = true → s.messageReadable) → s.unsynced = [] →
    resolve s.params.crcBase a = .ok .cmd →
    s.events = .hostWrite a (encode i) :: (evs ++ .engine :: rest) →
    (∀ e ∈ evs, e.harmless s.params.crcBase = true) → evs.count .engine = engineSteps i s →
    ∃ t : State, runSteps (evs.length + 2) s = .next t ∧
      t.result = commandValue i s ∧
      t.status.busy = false ∧ t.status.done = true ∧ t.status.err = false ∧
      t.status.ecode = 0#4 ∧ t.faddr = s.faddr ∧ t.events = rest ∧
      (readsMessage i = true → t.tbl = s.tbl ∧ t.status.tvalid = s.status.tvalid ∧
        t.msgReads = readAddresses s.addr s.len.toNat ++ s.msgReads) ∧
      (readsMessage i = false → t.status.tvalid = true ∧ (∀ j : Byte, tblGet t.tbl j = zext32 j) ∧
        t.msgReads = s.msgReads)

/-- With `HW_REFLECT = 0` and `POLY = HW_POLY`, `HWEVAL`, `DIVS` and `DIVB` agree step for step in `RESULT`, `STATUS`
and `FADDR`, on every message, seed and mask, failing reads included (from R144). Where a byte races, R196 lets each
run read its own admitted value; that the runs agree there too is the model's, whose free choice is the same in each
of them (log 9). -/
def Obligations.UnreflectedHwevalIsTheDivider : Prop :=
  ∀ (s t : State) (n : Nat), s.status.busy = false → s.params.hwReflect = false →
    s.poly = s.params.hwPoly → runCommand .hweval n s = .next t →
    ∃ u v, runCommand .divs n s = .next u ∧ runCommand .divb n s = .next v ∧
      u.result = t.result ∧ v.result = t.result ∧ u.status = t.status ∧ v.status = t.status ∧
      u.faddr = t.faddr ∧ v.faddr = t.faddr

/-- R110: two cores that agree on `POLY`, `INIT`, `FXOR` and the bytes of the message get the same result,
whatever their table, `CTRL`, `TIDX`, earlier result, hidden registers or message address. -/
def Obligations.DividerResultHasNoHiddenState : Prop :=
  ∀ (i : Instr) (s s' : State), i = .divs ∨ i = .divb →
    s.status.busy = false → s'.status.busy = false →
    s.messageReadable → s'.messageReadable → s.settled → s'.settled →
    s.poly = s'.poly → s.init = s'.init → s.fxor = s'.fxor → s.len = s'.len →
    s.message = s'.message →
    ∃ t t', runCommand i (s.len.toNat + 2) s = .next t ∧
      runCommand i (s'.len.toNat + 2) s' = .next t' ∧ t.result = t'.result

/-- R127: `TEVAL` ignores `INIT` and `FXOR` (and `POLY`, R130), at every point of a run. Where a byte races, the
two runs agree because the model's free choice is the same in both (log 9). -/
def Obligations.TevalIgnoresSeedMaskAndPolynomial : Prop :=
  ∀ (s t : State) (poly init fxor : Word) (n : Nat), s.status.busy = false →
    runCommand .teval n s = .next t →
    ∃ u, runCommand .teval n { s with poly := poly, init := init, fxor := fxor } = .next u ∧
      u.result = t.result ∧ u.status = t.status ∧ u.faddr = t.faddr ∧ u.msgReads = t.msgReads

/-- An accepted command ends (R89, R201): with no other agent, a running command completes within one engine
step per remaining byte or entry and one more. That the engine steps on an empty schedule is the model's form of
the fairness of R201 (log 3). -/
def Obligations.RunningCommandEnds : Prop :=
  ∀ s : State, Invariant s → s.status.busy = true → s.events = [] →
    ∃ n, n ≤ (if s.w.op = 3#4 then 256 - s.w.k.toNat else s.w.len.toNat - s.w.k.toNat) + 1 ∧
      ∃ t : State, runSteps n s = .next t ∧ t.status.busy = false ∧ t.status.done = true

end Commands

section WholeMachine

/-- Every step of every agent keeps the invariant, from every state that has it. -/
def Obligations.StepKeepsTheInvariant : Prop :=
  ∀ s t : State, Invariant s → step s = .next t → Invariant t

/-- The state after reset has the invariant. -/
def Obligations.ResetHasTheInvariant : Prop := Invariant State.reset

/-- No step faults in a state with the invariant, and a step is refused only for a host access that has no
step. The fault and the refusals are the model's (log 10, log 11). -/
def Obligations.NoReachableStepFaults : Prop :=
  (∀ (s : State) (r : Fault), Invariant s → step s ≠ .fault r) ∧
  ∀ (s : State) (r : Refusal), step s = .refused r →
    ∃ a, resolve s.params.crcBase a = .error r ∧
      (nextEvent s = .hostRead a ∨ ∃ v, nextEvent s = .hostWrite a v)

/-- R61: no step of the core writes the message space; only another bus master's write changes it, and it
changes that one byte. -/
def Obligations.CoreNeverWritesTheMessageSpace : Prop :=
  (∀ (e : Event) (s t : State), agentStep e s = .next t → e.writesMemory = false →
    ∀ a, t.mem.read a = s.mem.read a) ∧
  ∀ (s t : State) (x : Word) (b : Byte), Memory.wf s.mem → agentStep (.busWrite x b) s = .next t →
    ∀ a, t.mem.read a = if a = x.toNat then b else s.mem.read a

/-- R38: the successful completion of a command that returns a value writes it to `RESULT`; `RESULT` changes
only there, or at reset, to 0; so an error completion and `TBUILD` leave it, and during a run it keeps its
value. -/
def Obligations.ResultChangesOnlyAtCompletion : Prop :=
  State.reset.result = 0#32 ∧
  (∀ (i : Instr) (s : State), readsMessage i = true → s.status.busy = true → ¬ s.w.k < s.w.len →
    ∃ t, exec i s = .next t ∧ t.result = finalValue i s ∧ t.status.done = true) ∧
  ∀ s t : State, step s = .next t → t.result = s.result ∨
    (nextEvent s = .rst ∧ t.result = 0#32) ∨
    (nextEvent s = .engine ∧ s.status.busy = true ∧ t.status.done = true ∧ ¬ s.w.k < s.w.len ∧
      ∃ i, commandOf s.w.op s.w.s = .ok i ∧
        ((i = .teval ∧ t.result = s.w.acc) ∨
          ((i = .divs ∨ i = .divb ∨ i = .hweval) ∧ t.result = s.w.acc ^^^ s.w.fxor)))

/-- R41: a `BUS_ERROR` completion writes `FADDR` with the failing address; `FADDR` changes only there, or at
reset, to 0. -/
def Obligations.FaddrChangesOnlyAtABusError : Prop :=
  State.reset.faddr = 0#32 ∧
  (∀ (i : Instr) (s : State), readsMessage i = true → s.status.busy = true → s.w.k < s.w.len →
    busErrAt s.params (s.w.addr + s.w.k) = true →
    ∃ t, exec i s = .next t ∧ t.faddr = s.w.addr + s.w.k ∧ t.status.ecode = 3#4) ∧
  ∀ s t : State, step s = .next t → t.faddr = s.faddr ∨
    (nextEvent s = .rst ∧ t.faddr = 0#32) ∨
    (nextEvent s = .engine ∧ s.status.busy = true ∧ s.w.k < s.w.len ∧
      busErrAt s.params (s.w.addr + s.w.k) = true ∧ t.faddr = s.w.addr + s.w.k ∧
      t.status.err = true ∧ t.status.ecode = 3#4)

/-- R43: what sets and clears `TVALID`, and that the table is unchanged from one state with `TVALID = 1` to
the next. -/
def Obligations.TableValidityLifecycle : Prop :=
  ∀ s t : State, Invariant s → step s = .next t →
    (s.status.tvalid = false → t.status.tvalid = true →
      nextEvent s = .engine ∧ s.status.busy = true ∧ ¬ s.w.k < 256#32 ∧
      ∃ b, commandOf s.w.op s.w.s = .ok (.tbuild b)) ∧
    (s.status.tvalid = true → t.status.tvalid = false →
      nextEvent s = .rst ∨ (s.status.busy = false ∧ ∃ a c b, nextEvent s = .hostWrite a c ∧
        resolve s.params.crcBase a = .ok .cmd ∧ decode c = .ok (.tbuild b))) ∧
    (nextEvent s = .rst → t.status.tvalid = false) ∧
    (∀ a c b, nextEvent s = .hostWrite a c → resolve s.params.crcBase a = .ok .cmd →
      s.status.busy = false → decode c = .ok (.tbuild b) → t.status.tvalid = false) ∧
    (∀ b, nextEvent s = .engine → s.status.busy = true → ¬ s.w.k < 256#32 →
      commandOf s.w.op s.w.s = .ok (.tbuild b) → t.status.tvalid = true) ∧
    (s.status.tvalid = true → t.status.tvalid = true → t.tbl = s.tbl)

/-- R172: only reset or its own completion ends a running command. -/
def Obligations.OnlyResetCancelsACommand : Prop :=
  ∀ s t : State, step s = .next t → s.status.busy = true → t.status.busy = false →
    nextEvent s = .rst ∨ (nextEvent s = .engine ∧ t.status.done = true)

/-- A step issues at most one message read, at `(w[ADDR] + w[K]) mod 2^32`, by an engine step of a command that
reads the message and has bytes left; the index then moves on, or the command has ended (R63, R64, R65, R70). -/
def Obligations.EachByteIsReadOnce : Prop :=
  ∀ s t : State, step s = .next t → t.msgReads = s.msgReads ∨
    (nextEvent s = .engine ∧ s.status.busy = true ∧ s.w.k < s.w.len ∧
      (∃ i, commandOf s.w.op s.w.s = .ok i ∧ readsMessage i = true) ∧
      t.msgReads = (s.w.addr + s.w.k) :: s.msgReads ∧
      (t.status.busy = true → t.w.k = s.w.k + 1#32) ∧
      (t.status.busy = false → t.status.err = true ∧ t.status.ecode = 3#4))

/-- The parameters never change, so `ID`, `CAP` and `HWPOLY` read the same at every time (R26, R27, R28). -/
def Obligations.IdentificationNeverChanges : Prop :=
  ∀ s t : State, step s = .next t → t.params = s.params ∧
    readReg t .id = 0x43520100#32 ∧ readReg t .cap = readReg s .cap ∧
    readReg t .hwpoly = readReg s .hwpoly

/-- The canonical form of memory is unique: two memories that read alike at every address are equal data. It is a
property of the model's form of memory (log 6). -/
def Obligations.MemoriesThatReadAlikeAreEqual : Prop :=
  ∀ m m' : Memory, Memory.wf m → Memory.wf m' → (∀ a, m.read a = m'.read a) → m = m'

end WholeMachine

section RegisterWindow

/-- What a host read of each register returns, and that it changes nothing (R22 to R41): the read is recorded
with its address and data, which is the model's own trace of the port (log 13). That the working registers of an
idle core stay is the model's choice (log 23). -/
def Obligations.HostReadsReturnTheRegisters : Prop :=
  (∀ (s : State) (r : Reg), hostRead (r.access s.params.crcBase) s =
    .next { s with
      hostReads := (s.params.crcBase + BitVec.ofNat 32 r.offset, readReg s r) :: s.hostReads }) ∧
  ∀ s : State,
    readReg s .id = 0x43520100#32 ∧ readReg s .hwpoly = s.params.hwPoly ∧ readReg s .cmd = 0#32 ∧
    readReg s .poly = s.poly ∧ readReg s .init = s.init ∧ readReg s .fxor = s.fxor ∧
    readReg s .addr = s.addr ∧ readReg s .len = s.len ∧ readReg s .result = s.result ∧
    readReg s .faddr = s.faddr ∧ readReg s .reserved = 0#32 ∧
    (s.status.tvalid = true → readReg s .tdata = tblGet s.tbl s.idx) ∧
    (s.status.tvalid = false → readReg s .tdata = 0#32) ∧
    (readReg s .cap).getLsbD 0 = s.params.hwReflect ∧ (readReg s .ctrl).getLsbD 0 = s.ie ∧
    (readReg s .tidx).setWidth 8 = s.idx

/-- R31: where the fields of `STATUS` stand in the word a host read returns. -/
def Obligations.StatusBitsStandWhereR31Says : Prop :=
  ∀ s : State,
    (readReg s .status).getLsbD 0 = s.status.busy ∧ (readReg s .status).getLsbD 1 = s.status.done ∧
    (readReg s .status).getLsbD 2 = s.status.err ∧
    (readReg s .status).getLsbD 3 = s.status.cmdLost ∧
    (readReg s .status).extractLsb' 4 4 = s.status.ecode ∧
    (readReg s .status).getLsbD 8 = s.status.tvalid ∧
    (readReg s .status).extractLsb' 9 23 = 0#23

/-- R24 and R25: reserved bits read 0 and ignore writes, read-only registers and the reserved slot ignore
writes, write-only `CMD` and the reserved slot read 0, and a read leaves every register as it was. That the working
registers of an idle core stay is the model's choice (log 23). -/
def Obligations.ReservedAndReadOnlyBitsIgnoreWrites : Prop :=
  (∀ s : State, (readReg s .cap).extractLsb' 1 31 = 0#31 ∧
    (readReg s .ctrl).extractLsb' 1 31 = 0#31 ∧ (readReg s .status).extractLsb' 9 23 = 0#23 ∧
    (readReg s .tidx).extractLsb' 8 24 = 0#24 ∧ readReg s .cmd = 0#32 ∧
    readReg s .reserved = 0#32) ∧
  (∀ (s : State) (r : Reg) (v : Word),
    r ∈ [Reg.id, .cap, .hwpoly, .result, .tdata, .faddr, .reserved] →
    hostWrite (r.access s.params.crcBase) v s = .next s) ∧
  (∀ (s : State) (v v' : Word), v.getLsbD 0 = v'.getLsbD 0 →
    hostWrite (Reg.ctrl.access s.params.crcBase) v s =
      hostWrite (Reg.ctrl.access s.params.crcBase) v' s) ∧
  (∀ (s : State) (v v' : Word), v.extractLsb' 1 3 = v'.extractLsb' 1 3 →
    hostWrite (Reg.status.access s.params.crcBase) v s =
      hostWrite (Reg.status.access s.params.crcBase) v' s) ∧
  (∀ (s : State) (v v' : Word), v.extractLsb' 0 8 = v'.extractLsb' 0 8 →
    hostWrite (Reg.tidx.access s.params.crcBase) v s =
      hostWrite (Reg.tidx.access s.params.crcBase) v' s) ∧
  ∀ (s t : State) (a : Access) (r : Reg), hostRead a s = .next t → readReg t r = readReg s r

/-- A host write to a writable register takes effect at once and on that register alone (R29, R33 to R37, R39). That
the working registers of an idle core stay is the model's choice (log 23). -/
def Obligations.HostWritesTakeEffectAtOnce : Prop :=
  ∀ (s : State) (v : Word),
    hostWrite (Reg.ctrl.access s.params.crcBase) v s = .next { s with ie := v.getLsbD 0 } ∧
    hostWrite (Reg.poly.access s.params.crcBase) v s = .next { s with poly := v } ∧
    hostWrite (Reg.init.access s.params.crcBase) v s = .next { s with init := v } ∧
    hostWrite (Reg.fxor.access s.params.crcBase) v s = .next { s with fxor := v } ∧
    hostWrite (Reg.addr.access s.params.crcBase) v s = .next { s with addr := v } ∧
    hostWrite (Reg.len.access s.params.crcBase) v s = .next { s with len := v } ∧
    hostWrite (Reg.tidx.access s.params.crcBase) v s = .next { s with idx := v.extractLsb' 0 8 } ∧
    hostWrite (Reg.cmd.access s.params.crcBase) v s = presentCommand v s

/-- R32: the write-1-to-clear bits of `STATUS`. Of the working registers of an idle core, which may hold any value
(U2), it says nothing; see `WorkingRegistersStayBetweenCommands`. -/
def Obligations.StatusWriteClearsItsBits : Prop :=
  ∀ (s : State) (v : Word), ∃ t, hostWrite (Reg.status.access s.params.crcBase) v s = .next t ∧
    t = { s with
      status := { s.status with
        done := if v.getLsbD 1 then false else s.status.done
        err := if v.getLsbD 2 then false else s.status.err
        ecode := if v.getLsbD 2 then 0#4 else s.status.ecode
        cmdLost := if v.getLsbD 3 then false else s.status.cmdLost }
      w := t.w } ∧
    (s.status.busy = true → t.w = s.w)

/-- The return from an error (R174): a `STATUS` write with bit 2 set clears `ERR` and `ECODE`, and `DONE` if bit
1 is set; the acceptance of a legal command clears all three. -/
def Obligations.ErrorsAreClearedByTheHost : Prop :=
  (∀ (s : State) (v : Word), v.getLsbD 2 = true →
    (returnFromError v s).status.err = false ∧ (returnFromError v s).status.ecode = 0#4 ∧
    (returnFromError v s).status.done = (if v.getLsbD 1 then false else s.status.done)) ∧
  ∀ (s t : State) (c : Word), s.status.busy = false → presentCommand c s = .next t →
    t.status.busy = true →
    t.status.done = false ∧ t.status.err = false ∧ t.status.ecode = 0#4

/-- R23: inside an aligned window, the accesses with a step are exactly the aligned 32-bit ones with every byte
enabled, and every other access is refused. -/
def Obligations.OnlyAlignedWordAccessesHaveAStep : Prop :=
  ∀ (s : State) (a : Access) (v : Word), s.params.crcBase.toNat % 64 = 0 →
    (a.addr - s.params.crcBase).toNat < 64 →
    (a.bits = 32 ∧ a.addr.toNat % 4 = 0 ∧ a.enables = 0xF#4 →
      (∃ t, hostRead a s = .next t) ∧ ∃ t, hostWrite a v s = .next t) ∧
    (¬ (a.bits = 32 ∧ a.addr.toNat % 4 = 0 ∧ a.enables = 0xF#4) →
      hostRead a s = .refused .unsupportedAccess ∧ hostWrite a v s = .refused .unsupportedAccess)

end RegisterWindow

section InterruptResetHazards

/-- R170 and R171: the interrupt level, what clears it, what masks it, what asserts it at once, that every
completion asserts it while `IE = 1`, the error completions of acceptance included, and that a lost command
does not. -/
def Obligations.InterruptFollowsDone : Prop :=
  (∀ s : State, s.irq = true ↔ s.ie = true ∧ s.status.done = true) ∧
  (∀ (s : State) (v : Word), v.getLsbD 1 = true → (writeReg v s .status).irq = false) ∧
  (∀ (s t : State) (c : Word), s.status.busy = false → presentCommand c s = .next t →
    t.status.busy = true → t.irq = false) ∧
  (∀ (s t : State) (c : Word), s.status.busy = false → presentCommand c s = .next t → s.ie = true →
    t.status.busy = false → t.irq = true) ∧
  (∀ (s t : State) (c : Word), s.status.busy = true → presentCommand c s = .next t →
    t.irq = s.irq) ∧
  (∀ (s : State) (v : Word), v.getLsbD 0 = false →
    (writeReg v s .ctrl).irq = false ∧ (writeReg v s .ctrl).status.done = s.status.done) ∧
  (∀ (s : State) (v : Word), v.getLsbD 0 = true → s.status.done = true →
    (writeReg v s .ctrl).irq = true) ∧
  ∀ (i : Instr) (s t : State), exec i s = .next t → s.status.busy = true → s.ie = true →
    t.status.busy = false → t.irq = true

/-- R48 and R191: the values after reset, from every state, and that nothing more happens of an abandoned command.
What the spec leaves unspecified (the table RAM and the working registers) is not stated. The parameters and
the message memory are the platform's and stay (log 8), and an idle engine step keeps the working registers by the
model's choice (log 23). -/
def Obligations.ResetSetsEveryRegister : Prop :=
  ∀ s t : State, agentStep .rst s = .next t →
    readReg t .id = 0x43520100#32 ∧ readReg t .cap = zextBit s.params.hwReflect ∧
    readReg t .hwpoly = s.params.hwPoly ∧ readReg t .ctrl = 0#32 ∧ readReg t .status = 0#32 ∧
    readReg t .poly = 0#32 ∧ readReg t .init = 0#32 ∧ readReg t .fxor = 0#32 ∧
    readReg t .addr = 0#32 ∧ readReg t .len = 0#32 ∧ readReg t .result = 0#32 ∧
    readReg t .tidx = 0#32 ∧ readReg t .tdata = 0#32 ∧ readReg t .faddr = 0#32 ∧
    t.eng = .idle ∧ t.irq = false ∧ t.msgReads = s.msgReads ∧ engineStep t = .next t

/-- R198: while `TBUILD` runs, `TVALID` is 0, `TDATA` reads 0 and no command, so no `TEVAL`, is accepted. -/
def Obligations.PartTableIsNeverSeen : Prop :=
  ∀ s : State, Invariant s → s.status.busy = true → s.w.op = 3#4 →
    s.status.tvalid = false ∧ readReg s .tdata = 0#32 ∧
    ∀ c, ∃ t, presentCommand c s = .next t ∧ t.w = s.w ∧ t.tbl = s.tbl ∧
      t.status = { s.status with cmdLost := true }

/-- R199: a host write to an operand register takes effect at once in that register and leaves a running command's
snapshot; during a command it, or a write to `CTRL` or `TIDX`, commutes with the command's next engine step. Where
that step's byte races, the two orders agree because the model's free choice is the same in both (log 9). -/
def Obligations.OperandWriteCommutesWithTheEngine : Prop :=
  (∀ (s : State) (r : Reg) (v : Word), r ∈ [Reg.poly, .init, .fxor, .addr, .len] →
    ∃ t, hostWrite (r.access s.params.crcBase) v s = .next t ∧ readReg t r = v ∧
      (s.status.busy = true → t.w = s.w)) ∧
  ∀ (s t : State) (r : Reg) (v : Word),
    r ∈ [Reg.poly, .init, .fxor, .addr, .len, .ctrl, .tidx] → s.status.busy = true →
    engineStep s = .next t → engineStep (writeReg v s r) = .next (writeReg v t r)

/-- R203: a `STATUS` write before the completion step, successful or not, does not lose what it sets in `DONE`,
`ERR` and `ECODE`, and a `CMD` write before it is lost and starts nothing. -/
def Obligations.CompletionWinsOverSameClockWrites : Prop :=
  (∀ (i : Instr) (s : State), completionDue i s →
    (∀ v : Word, ∃ t, exec i (writeReg v s .status) = .next t ∧ t.status.done = true) ∧
    ∀ c : Word, ∃ u t, presentCommand c s = .next u ∧ exec i u = .next t ∧
      t.status.cmdLost = true ∧ t.status.done = true ∧ t.status.busy = false) ∧
  ∀ (i : Instr) (s : State), readsMessage i = true → s.status.busy = true → s.w.k < s.w.len →
    busErrAt s.params (s.w.addr + s.w.k) = true →
    (∀ v : Word, ∃ t, exec i (writeReg v s .status) = .next t ∧ t.status.done = true ∧
      t.status.err = true ∧ t.status.ecode = 3#4) ∧
    ∀ c : Word, ∃ u t, presentCommand c s = .next u ∧ exec i u = .next t ∧
      t.status.cmdLost = true ∧ t.status.done = true ∧ t.status.busy = false

/-- R196: a byte that a bus master writes while the command runs reads as the old or as the new value, and as
nothing else. The choice is a free value of the model (log 9). -/
def Obligations.RacingByteReadsOldOrNew : Prop :=
  ∀ (i : Instr) (s t : State) (b : Byte), readsMessage i = true → Memory.wf s.mem →
    s.status.busy = true → s.w.k < s.w.len → busErrAt s.params (s.w.addr + s.w.k) = false →
    s.raceValues (s.w.addr + s.w.k) = [] →
    exec i (busWrite (s.w.addr + s.w.k) b s) = .next t →
    t.w.acc = byteUpdate i s s.w.acc (s.mem.read (s.w.addr + s.w.k).toNat) ∨
    t.w.acc = byteUpdate i s s.w.acc b

/-- R74: a byte written before the `CMD` write reads, during the command, as the old or the new value; once it is
made visible before the `CMD` write, as the new value. The choice is a free value of the model (log 9). -/
def Obligations.WritesMustBeVisibleBeforeTheCommand : Prop :=
  ∀ (i : Instr) (s t : State) (x : Word) (b : Byte), Memory.wf s.mem → s.status.busy = false →
    s.settled → busErrAt s.params x = false → t.status.busy = true →
    (exec i (busWrite x b s) = .next t →
      t.memRead x = .byte (s.mem.read x.toNat) ∨ t.memRead x = .byte b) ∧
    (exec i (makeVisible (busWrite x b s)) = .next t → t.memRead x = .byte b)

end InterruptResetHazards

section ModelChoices

/-- The model's choice where the spec leaves the working registers any value (U2; log 23): a step of a command that
leaves the core idle, by a completion, an error completion or a refusal at acceptance, keeps them, and so does
every step but reset from an idle core to an idle core. -/
def Obligations.WorkingRegistersStayBetweenCommands : Prop :=
  (∀ (i : Instr) (s t : State), exec i s = .next t → t.status.busy = false → t.w = s.w) ∧
  ∀ (e : Event) (s t : State), e ≠ .rst → agentStep e s = .next t → s.status.busy = false →
    t.status.busy = false → t.w = s.w

end ModelChoices
end

