-- ==== Sys2Proof/Laws/Memory.lean ====
section
/-! SUPPORT. Message memory: read after write, and every operation keeps the canonical form. -/

namespace Sys2Proof.Machine

theorem Memory.read_nil (a : Nat) : Memory.read [] a = Memory.blank := rfl

theorem Memory.read_cons (c : Host.Cell) (m : Memory) (a : Nat) :
    Memory.read (c :: m) a = if c.1 = a then c.2 else Memory.read m a := rfl

/-- Below every listed address, memory reads as unlisted. -/
theorem Memory.read_below {m : Memory} {a : Nat} (h : ∀ c ∈ m, a < c.1) :
    Memory.read m a = Memory.blank := by
  induction m with
  | nil => rfl
  | cons c m ih =>
    have hc : a < c.1 := h c (by simp)
    rw [Memory.read_cons, if_neg (by omega)]
    exact ih fun d hd => h d (by simp [hd])

/-- What a write leaves at every address of a memory in rising order. -/
theorem Memory.read_write {m : Memory} (hm : m.Pairwise (fun c d => c.1 < d.1)) (a x : Nat) (b : Byte) :
    Memory.read (Memory.write m a b) x = if x = a then b else Memory.read m x := by
  induction m with
  | nil =>
    by_cases hx : x = a
    · by_cases hb : b = Memory.blank <;> simp [Memory.write, Memory.read, hb, hx]
    · by_cases hb : b = Memory.blank <;> simp [Memory.write, Memory.read, hb, hx, Ne.symm hx]
  | cons c m ih =>
    obtain ⟨hc, hm'⟩ := List.pairwise_cons.1 hm
    have hlow : ∀ y, y ≤ c.1 → Memory.read m y = Memory.blank := fun y hy =>
      Memory.read_below fun d hd => lt_of_le_of_lt hy (hc d hd)
    rcases Nat.lt_trichotomy a c.1 with h | h | h
    · have hne : c.1 ≠ a := by omega
      by_cases hb : b = Memory.blank
      · by_cases hx : x = a
        · subst hx
          simp [Memory.write, h, hb, Memory.read_cons, hne, hlow x (by omega)]
        · simp [Memory.write, h, hb, hx]
      · by_cases hx : x = a
        · simp [Memory.write, h, hb, hx, Memory.read_cons]
        · simp [Memory.write, h, hb, hx, Memory.read_cons, Ne.symm hx]
    · subst h
      by_cases hb : b = Memory.blank
      · by_cases hx : x = c.1
        · simp [Memory.write, hb, hx, hlow c.1 le_rfl]
        · simp [Memory.write, hb, hx, Memory.read_cons, Ne.symm hx]
      · by_cases hx : x = c.1
        · simp [Memory.write, hb, hx, Memory.read_cons]
        · simp [Memory.write, hb, hx, Memory.read_cons, Ne.symm hx]
    · have h1 : ¬ a < c.1 := by omega
      have h2 : a ≠ c.1 := by omega
      simp only [Memory.write, h1, h2, if_false, Memory.read_cons, ih hm']
      by_cases hx : x = a
      · simp [hx, h2.symm]
      · simp [hx]

/-- A read after a write to the same address gives the byte written. -/
theorem Memory.read_write_same {m : Memory} (hm : Memory.wf m) (a : Nat) (b : Byte) :
    Memory.read (Memory.write m a b) a = b := by
  simp [Memory.read_write hm.1]

/-- A write leaves every other address alone. -/
theorem Memory.read_write_other {m : Memory} (hm : Memory.wf m) {a x : Nat} (h : x ≠ a) (b : Byte) :
    Memory.read (Memory.write m a b) x = Memory.read m x := by
  simp [Memory.read_write hm.1, h]

theorem Memory.mem_write {m : Memory} {a : Nat} {b : Byte} {c : Host.Cell} (h : c ∈ Memory.write m a b) :
    c ∈ m ∨ (c = (a, b) ∧ b ≠ Memory.blank) := by
  induction m with
  | nil =>
    by_cases hb : b = Memory.blank <;> simp_all [Memory.write]
  | cons d m ih =>
    unfold Memory.write at h
    split at h
    · split at h <;> simp_all
      rcases h with h | h | h <;> simp_all
    · split at h
      · split at h <;> simp_all
        rcases h with h | h <;> simp_all
      · rcases List.mem_cons.1 h with h | h
        · simp [h]
        · rcases ih h with h | h <;> simp_all

/-- A write keeps the canonical form. -/
theorem Memory.write_wf {m : Memory} (hm : Memory.wf m) {a : Nat} (ha : a < 2 ^ 32) (b : Byte) :
    Memory.wf (Memory.write m a b) := by
  refine ⟨?_, fun c hc => ?_⟩
  · obtain ⟨hp, -⟩ := hm
    induction m with
    | nil => by_cases hb : b = Memory.blank <;> simp [Memory.write, hb]
    | cons d m ih =>
      obtain ⟨hd, hp'⟩ := List.pairwise_cons.1 hp
      unfold Memory.write
      split
      · rename_i hlt
        split
        · exact hp
        · refine List.pairwise_cons.2 ⟨fun c hc => ?_, hp⟩
          rcases List.mem_cons.1 hc with rfl | hc
          · exact hlt
          · exact lt_trans hlt (hd c hc)
      · split
        · rename_i heq
          split
          · exact hp'
          · exact List.pairwise_cons.2 ⟨fun c hc => by simpa [heq] using hd c hc, hp'⟩
        · refine List.pairwise_cons.2 ⟨fun c hc => ?_, ih hp'⟩
          rcases Memory.mem_write hc with hc | ⟨rfl, -⟩
          · exact hd c hc
          · simp only; omega
  · rcases Memory.mem_write hc with hc | ⟨rfl, hb⟩
    · exact hm.2 c hc
    · exact ⟨ha, hb⟩

/-- The memory of the state after reset is in canonical form. -/
theorem Memory.reset_wf : Memory.wf State.reset.mem := by
  decide

/-- What another bus master writes keeps the canonical form. -/
theorem busWrite_wf {s : State} (h : Memory.wf s.mem) (a : Word) (b : Byte) :
    Memory.wf (busWrite a b s).mem :=
  Memory.write_wf h a.isLt b

end Sys2Proof.Machine
end

