-- ==== Sys2Proof/Laws/State.lean ====
section
/-! SUPPORT. What each update of the state leaves in each field, one lemma a field, true by rfl. -/

namespace Sys2Proof.Machine

section

/-! ### The flag operations of Machine/Flags.lean -/

@[simp] theorem clearedBy_busy (v : Word) (st : Status) : (st.clearedBy v).busy = st.busy := rfl
@[simp] theorem clearedBy_done (v : Word) (st : Status) : (st.clearedBy v).done = (st.done && !v.getLsbD 1) := rfl
@[simp] theorem clearedBy_err (v : Word) (st : Status) : (st.clearedBy v).err = (st.err && !v.getLsbD 2) := rfl
@[simp] theorem clearedBy_cmdLost (v : Word) (st : Status) : (st.clearedBy v).cmdLost = (st.cmdLost && !v.getLsbD 3) := rfl
@[simp] theorem clearedBy_ecode (v : Word) (st : Status) : (st.clearedBy v).ecode = if v.getLsbD 2 then 0#4 else st.ecode := rfl
@[simp] theorem clearedBy_tvalid (v : Word) (st : Status) : (st.clearedBy v).tvalid = st.tvalid := rfl

@[simp] theorem accepting_busy (st : Status) : (st.accepting).busy = st.busy := rfl
@[simp] theorem accepting_done (st : Status) : (st.accepting).done = false := rfl
@[simp] theorem accepting_err (st : Status) : (st.accepting).err = false := rfl
@[simp] theorem accepting_cmdLost (st : Status) : (st.accepting).cmdLost = st.cmdLost := rfl
@[simp] theorem accepting_ecode (st : Status) : (st.accepting).ecode = 0#4 := rfl
@[simp] theorem accepting_tvalid (st : Status) : (st.accepting).tvalid = st.tvalid := rfl

@[simp] theorem started_busy (c : Bool) (st : Status) : (st.started c).busy = true := rfl
@[simp] theorem started_done (c : Bool) (st : Status) : (st.started c).done = false := rfl
@[simp] theorem started_err (c : Bool) (st : Status) : (st.started c).err = false := rfl
@[simp] theorem started_cmdLost (c : Bool) (st : Status) : (st.started c).cmdLost = st.cmdLost := rfl
@[simp] theorem started_ecode (c : Bool) (st : Status) : (st.started c).ecode = 0#4 := rfl
@[simp] theorem started_tvalid (c : Bool) (st : Status) : (st.started c).tvalid = (st.tvalid && !c) := rfl

@[simp] theorem finished_busy (st : Status) : (st.finished).busy = false := rfl
@[simp] theorem finished_done (st : Status) : (st.finished).done = true := rfl
@[simp] theorem finished_err (st : Status) : (st.finished).err = st.err := rfl
@[simp] theorem finished_cmdLost (st : Status) : (st.finished).cmdLost = st.cmdLost := rfl
@[simp] theorem finished_ecode (st : Status) : (st.finished).ecode = st.ecode := rfl
@[simp] theorem finished_tvalid (st : Status) : (st.finished).tvalid = st.tvalid := rfl

@[simp] theorem failed_busy (code : BitVec 4) (st : Status) : (st.failed code).busy = false := rfl
@[simp] theorem failed_done (code : BitVec 4) (st : Status) : (st.failed code).done = true := rfl
@[simp] theorem failed_err (code : BitVec 4) (st : Status) : (st.failed code).err = true := rfl
@[simp] theorem failed_cmdLost (code : BitVec 4) (st : Status) : (st.failed code).cmdLost = st.cmdLost := rfl
@[simp] theorem failed_ecode (code : BitVec 4) (st : Status) : (st.failed code).ecode = code := rfl
@[simp] theorem failed_tvalid (code : BitVec 4) (st : Status) : (st.failed code).tvalid = st.tvalid := rfl

@[simp] theorem lost_busy (st : Status) : (st.lost).busy = st.busy := rfl
@[simp] theorem lost_done (st : Status) : (st.lost).done = st.done := rfl
@[simp] theorem lost_err (st : Status) : (st.lost).err = st.err := rfl
@[simp] theorem lost_cmdLost (st : Status) : (st.lost).cmdLost = true := rfl
@[simp] theorem lost_ecode (st : Status) : (st.lost).ecode = st.ecode := rfl
@[simp] theorem lost_tvalid (st : Status) : (st.lost).tvalid = st.tvalid := rfl

end

section

/-! ### The working registers after acceptance -/

@[simp] theorem snapshot_op (i : Instr) (acc : Word) (s : State) : (snapshot i acc s).op = opcodeOf i := rfl
@[simp] theorem snapshot_s (i : Instr) (acc : Word) (s : State) : (snapshot i acc s).s = strategyOf i := rfl
@[simp] theorem snapshot_k (i : Instr) (acc : Word) (s : State) : (snapshot i acc s).k = 0#32 := rfl
@[simp] theorem snapshot_acc (i : Instr) (acc : Word) (s : State) : (snapshot i acc s).acc = acc := rfl
@[simp] theorem snapshot_poly (i : Instr) (acc : Word) (s : State) : (snapshot i acc s).poly = s.poly := rfl
@[simp] theorem snapshot_init (i : Instr) (acc : Word) (s : State) : (snapshot i acc s).init = s.init := rfl
@[simp] theorem snapshot_fxor (i : Instr) (acc : Word) (s : State) : (snapshot i acc s).fxor = s.fxor := rfl
@[simp] theorem snapshot_addr (i : Instr) (acc : Word) (s : State) : (snapshot i acc s).addr = s.addr := rfl
@[simp] theorem snapshot_len (i : Instr) (acc : Word) (s : State) : (snapshot i acc s).len = s.len := rfl

end

section

/-! ### The updates of the state -/

@[simp] theorem beginAcceptance_params (s : State) : (beginAcceptance s).params = s.params := rfl
@[simp] theorem beginAcceptance_ie (s : State) : (beginAcceptance s).ie = s.ie := rfl
@[simp] theorem beginAcceptance_status (s : State) : (beginAcceptance s).status = s.status.accepting := rfl
@[simp] theorem beginAcceptance_poly (s : State) : (beginAcceptance s).poly = s.poly := rfl
@[simp] theorem beginAcceptance_init (s : State) : (beginAcceptance s).init = s.init := rfl
@[simp] theorem beginAcceptance_fxor (s : State) : (beginAcceptance s).fxor = s.fxor := rfl
@[simp] theorem beginAcceptance_addr (s : State) : (beginAcceptance s).addr = s.addr := rfl
@[simp] theorem beginAcceptance_len (s : State) : (beginAcceptance s).len = s.len := rfl
@[simp] theorem beginAcceptance_result (s : State) : (beginAcceptance s).result = s.result := rfl
@[simp] theorem beginAcceptance_idx (s : State) : (beginAcceptance s).idx = s.idx := rfl
@[simp] theorem beginAcceptance_faddr (s : State) : (beginAcceptance s).faddr = s.faddr := rfl
@[simp] theorem beginAcceptance_tbl (s : State) : (beginAcceptance s).tbl = s.tbl := rfl
@[simp] theorem beginAcceptance_w (s : State) : (beginAcceptance s).w = s.w := rfl
@[simp] theorem beginAcceptance_mem (s : State) : (beginAcceptance s).mem = s.mem := rfl
@[simp] theorem beginAcceptance_unsynced (s : State) : (beginAcceptance s).unsynced = s.unsynced := rfl
@[simp] theorem beginAcceptance_window (s : State) : (beginAcceptance s).window = s.window := rfl
@[simp] theorem beginAcceptance_msgReads (s : State) : (beginAcceptance s).msgReads = s.msgReads := rfl
@[simp] theorem beginAcceptance_hostReads (s : State) : (beginAcceptance s).hostReads = s.hostReads := rfl
@[simp] theorem beginAcceptance_draws (s : State) : (beginAcceptance s).draws = s.draws := rfl
@[simp] theorem beginAcceptance_events (s : State) : (beginAcceptance s).events = s.events := rfl

@[simp] theorem accept_params (i : Instr) (c : Bool) (acc : Word) (s : State) : (accept i c acc s).params = s.params := rfl
@[simp] theorem accept_ie (i : Instr) (c : Bool) (acc : Word) (s : State) : (accept i c acc s).ie = s.ie := rfl
@[simp] theorem accept_status (i : Instr) (c : Bool) (acc : Word) (s : State) : (accept i c acc s).status = s.status.started c := rfl
@[simp] theorem accept_poly (i : Instr) (c : Bool) (acc : Word) (s : State) : (accept i c acc s).poly = s.poly := rfl
@[simp] theorem accept_init (i : Instr) (c : Bool) (acc : Word) (s : State) : (accept i c acc s).init = s.init := rfl
@[simp] theorem accept_fxor (i : Instr) (c : Bool) (acc : Word) (s : State) : (accept i c acc s).fxor = s.fxor := rfl
@[simp] theorem accept_addr (i : Instr) (c : Bool) (acc : Word) (s : State) : (accept i c acc s).addr = s.addr := rfl
@[simp] theorem accept_len (i : Instr) (c : Bool) (acc : Word) (s : State) : (accept i c acc s).len = s.len := rfl
@[simp] theorem accept_result (i : Instr) (c : Bool) (acc : Word) (s : State) : (accept i c acc s).result = s.result := rfl
@[simp] theorem accept_idx (i : Instr) (c : Bool) (acc : Word) (s : State) : (accept i c acc s).idx = s.idx := rfl
@[simp] theorem accept_faddr (i : Instr) (c : Bool) (acc : Word) (s : State) : (accept i c acc s).faddr = s.faddr := rfl
@[simp] theorem accept_tbl (i : Instr) (c : Bool) (acc : Word) (s : State) : (accept i c acc s).tbl = s.tbl := rfl
@[simp] theorem accept_w (i : Instr) (c : Bool) (acc : Word) (s : State) : (accept i c acc s).w = snapshot i acc s := rfl
@[simp] theorem accept_mem (i : Instr) (c : Bool) (acc : Word) (s : State) : (accept i c acc s).mem = s.mem := rfl
@[simp] theorem accept_unsynced (i : Instr) (c : Bool) (acc : Word) (s : State) : (accept i c acc s).unsynced = s.unsynced := rfl
@[simp] theorem accept_window (i : Instr) (c : Bool) (acc : Word) (s : State) : (accept i c acc s).window = [] := rfl
@[simp] theorem accept_msgReads (i : Instr) (c : Bool) (acc : Word) (s : State) : (accept i c acc s).msgReads = s.msgReads := rfl
@[simp] theorem accept_hostReads (i : Instr) (c : Bool) (acc : Word) (s : State) : (accept i c acc s).hostReads = s.hostReads := rfl
@[simp] theorem accept_draws (i : Instr) (c : Bool) (acc : Word) (s : State) : (accept i c acc s).draws = s.draws := rfl
@[simp] theorem accept_events (i : Instr) (c : Bool) (acc : Word) (s : State) : (accept i c acc s).events = s.events := rfl

@[simp] theorem completeResult_params (v : Word) (s : State) : (completeResult v s).params = s.params := rfl
@[simp] theorem completeResult_ie (v : Word) (s : State) : (completeResult v s).ie = s.ie := rfl
@[simp] theorem completeResult_status (v : Word) (s : State) : (completeResult v s).status = s.status.finished := rfl
@[simp] theorem completeResult_poly (v : Word) (s : State) : (completeResult v s).poly = s.poly := rfl
@[simp] theorem completeResult_init (v : Word) (s : State) : (completeResult v s).init = s.init := rfl
@[simp] theorem completeResult_fxor (v : Word) (s : State) : (completeResult v s).fxor = s.fxor := rfl
@[simp] theorem completeResult_addr (v : Word) (s : State) : (completeResult v s).addr = s.addr := rfl
@[simp] theorem completeResult_len (v : Word) (s : State) : (completeResult v s).len = s.len := rfl
@[simp] theorem completeResult_result (v : Word) (s : State) : (completeResult v s).result = v := rfl
@[simp] theorem completeResult_idx (v : Word) (s : State) : (completeResult v s).idx = s.idx := rfl
@[simp] theorem completeResult_faddr (v : Word) (s : State) : (completeResult v s).faddr = s.faddr := rfl
@[simp] theorem completeResult_tbl (v : Word) (s : State) : (completeResult v s).tbl = s.tbl := rfl
@[simp] theorem completeResult_w (v : Word) (s : State) : (completeResult v s).w = s.w := rfl
@[simp] theorem completeResult_mem (v : Word) (s : State) : (completeResult v s).mem = s.mem := rfl
@[simp] theorem completeResult_unsynced (v : Word) (s : State) : (completeResult v s).unsynced = s.unsynced := rfl
@[simp] theorem completeResult_window (v : Word) (s : State) : (completeResult v s).window = s.window := rfl
@[simp] theorem completeResult_msgReads (v : Word) (s : State) : (completeResult v s).msgReads = s.msgReads := rfl
@[simp] theorem completeResult_hostReads (v : Word) (s : State) : (completeResult v s).hostReads = s.hostReads := rfl
@[simp] theorem completeResult_draws (v : Word) (s : State) : (completeResult v s).draws = s.draws := rfl
@[simp] theorem completeResult_events (v : Word) (s : State) : (completeResult v s).events = s.events := rfl

@[simp] theorem completeTable_params (s : State) : (completeTable s).params = s.params := rfl
@[simp] theorem completeTable_ie (s : State) : (completeTable s).ie = s.ie := rfl
@[simp] theorem completeTable_status (s : State) : (completeTable s).status = { s.status.finished with tvalid := true } := rfl
@[simp] theorem completeTable_poly (s : State) : (completeTable s).poly = s.poly := rfl
@[simp] theorem completeTable_init (s : State) : (completeTable s).init = s.init := rfl
@[simp] theorem completeTable_fxor (s : State) : (completeTable s).fxor = s.fxor := rfl
@[simp] theorem completeTable_addr (s : State) : (completeTable s).addr = s.addr := rfl
@[simp] theorem completeTable_len (s : State) : (completeTable s).len = s.len := rfl
@[simp] theorem completeTable_result (s : State) : (completeTable s).result = s.result := rfl
@[simp] theorem completeTable_idx (s : State) : (completeTable s).idx = s.idx := rfl
@[simp] theorem completeTable_faddr (s : State) : (completeTable s).faddr = s.faddr := rfl
@[simp] theorem completeTable_tbl (s : State) : (completeTable s).tbl = s.tbl := rfl
@[simp] theorem completeTable_w (s : State) : (completeTable s).w = s.w := rfl
@[simp] theorem completeTable_mem (s : State) : (completeTable s).mem = s.mem := rfl
@[simp] theorem completeTable_unsynced (s : State) : (completeTable s).unsynced = s.unsynced := rfl
@[simp] theorem completeTable_window (s : State) : (completeTable s).window = s.window := rfl
@[simp] theorem completeTable_msgReads (s : State) : (completeTable s).msgReads = s.msgReads := rfl
@[simp] theorem completeTable_hostReads (s : State) : (completeTable s).hostReads = s.hostReads := rfl
@[simp] theorem completeTable_draws (s : State) : (completeTable s).draws = s.draws := rfl
@[simp] theorem completeTable_events (s : State) : (completeTable s).events = s.events := rfl

@[simp] theorem loseCommand_params (s : State) : (loseCommand s).params = s.params := rfl
@[simp] theorem loseCommand_ie (s : State) : (loseCommand s).ie = s.ie := rfl
@[simp] theorem loseCommand_status (s : State) : (loseCommand s).status = s.status.lost := rfl
@[simp] theorem loseCommand_poly (s : State) : (loseCommand s).poly = s.poly := rfl
@[simp] theorem loseCommand_init (s : State) : (loseCommand s).init = s.init := rfl
@[simp] theorem loseCommand_fxor (s : State) : (loseCommand s).fxor = s.fxor := rfl
@[simp] theorem loseCommand_addr (s : State) : (loseCommand s).addr = s.addr := rfl
@[simp] theorem loseCommand_len (s : State) : (loseCommand s).len = s.len := rfl
@[simp] theorem loseCommand_result (s : State) : (loseCommand s).result = s.result := rfl
@[simp] theorem loseCommand_idx (s : State) : (loseCommand s).idx = s.idx := rfl
@[simp] theorem loseCommand_faddr (s : State) : (loseCommand s).faddr = s.faddr := rfl
@[simp] theorem loseCommand_tbl (s : State) : (loseCommand s).tbl = s.tbl := rfl
@[simp] theorem loseCommand_w (s : State) : (loseCommand s).w = s.w := rfl
@[simp] theorem loseCommand_mem (s : State) : (loseCommand s).mem = s.mem := rfl
@[simp] theorem loseCommand_unsynced (s : State) : (loseCommand s).unsynced = s.unsynced := rfl
@[simp] theorem loseCommand_window (s : State) : (loseCommand s).window = s.window := rfl
@[simp] theorem loseCommand_msgReads (s : State) : (loseCommand s).msgReads = s.msgReads := rfl
@[simp] theorem loseCommand_hostReads (s : State) : (loseCommand s).hostReads = s.hostReads := rfl
@[simp] theorem loseCommand_draws (s : State) : (loseCommand s).draws = s.draws := rfl
@[simp] theorem loseCommand_events (s : State) : (loseCommand s).events = s.events := rfl

@[simp] theorem raise_params (e : CmdError) (s : State) : (raise e s).params = s.params := rfl
@[simp] theorem raise_ie (e : CmdError) (s : State) : (raise e s).ie = s.ie := rfl
@[simp] theorem raise_status (e : CmdError) (s : State) : (raise e s).status = s.status.failed e.code := rfl
@[simp] theorem raise_poly (e : CmdError) (s : State) : (raise e s).poly = s.poly := rfl
@[simp] theorem raise_init (e : CmdError) (s : State) : (raise e s).init = s.init := rfl
@[simp] theorem raise_fxor (e : CmdError) (s : State) : (raise e s).fxor = s.fxor := rfl
@[simp] theorem raise_addr (e : CmdError) (s : State) : (raise e s).addr = s.addr := rfl
@[simp] theorem raise_len (e : CmdError) (s : State) : (raise e s).len = s.len := rfl
@[simp] theorem raise_result (e : CmdError) (s : State) : (raise e s).result = s.result := rfl
@[simp] theorem raise_idx (e : CmdError) (s : State) : (raise e s).idx = s.idx := rfl
@[simp] theorem raise_faddr (e : CmdError) (s : State) : (raise e s).faddr = e.faddr s.faddr := rfl
@[simp] theorem raise_tbl (e : CmdError) (s : State) : (raise e s).tbl = s.tbl := rfl
@[simp] theorem raise_w (e : CmdError) (s : State) : (raise e s).w = s.w := rfl
@[simp] theorem raise_mem (e : CmdError) (s : State) : (raise e s).mem = s.mem := rfl
@[simp] theorem raise_unsynced (e : CmdError) (s : State) : (raise e s).unsynced = s.unsynced := rfl
@[simp] theorem raise_window (e : CmdError) (s : State) : (raise e s).window = s.window := rfl
@[simp] theorem raise_msgReads (e : CmdError) (s : State) : (raise e s).msgReads = s.msgReads := rfl
@[simp] theorem raise_hostReads (e : CmdError) (s : State) : (raise e s).hostReads = s.hostReads := rfl
@[simp] theorem raise_draws (e : CmdError) (s : State) : (raise e s).draws = s.draws := rfl
@[simp] theorem raise_events (e : CmdError) (s : State) : (raise e s).events = s.events := rfl

@[simp] theorem issueRead_params (s : State) (a : Word) : (s.issueRead a).params = s.params := rfl
@[simp] theorem issueRead_ie (s : State) (a : Word) : (s.issueRead a).ie = s.ie := rfl
@[simp] theorem issueRead_status (s : State) (a : Word) : (s.issueRead a).status = s.status := rfl
@[simp] theorem issueRead_poly (s : State) (a : Word) : (s.issueRead a).poly = s.poly := rfl
@[simp] theorem issueRead_init (s : State) (a : Word) : (s.issueRead a).init = s.init := rfl
@[simp] theorem issueRead_fxor (s : State) (a : Word) : (s.issueRead a).fxor = s.fxor := rfl
@[simp] theorem issueRead_addr (s : State) (a : Word) : (s.issueRead a).addr = s.addr := rfl
@[simp] theorem issueRead_len (s : State) (a : Word) : (s.issueRead a).len = s.len := rfl
@[simp] theorem issueRead_result (s : State) (a : Word) : (s.issueRead a).result = s.result := rfl
@[simp] theorem issueRead_idx (s : State) (a : Word) : (s.issueRead a).idx = s.idx := rfl
@[simp] theorem issueRead_faddr (s : State) (a : Word) : (s.issueRead a).faddr = s.faddr := rfl
@[simp] theorem issueRead_tbl (s : State) (a : Word) : (s.issueRead a).tbl = s.tbl := rfl
@[simp] theorem issueRead_w (s : State) (a : Word) : (s.issueRead a).w = s.w := rfl
@[simp] theorem issueRead_mem (s : State) (a : Word) : (s.issueRead a).mem = s.mem := rfl
@[simp] theorem issueRead_unsynced (s : State) (a : Word) : (s.issueRead a).unsynced = s.unsynced := rfl
@[simp] theorem issueRead_window (s : State) (a : Word) : (s.issueRead a).window = s.window := rfl
@[simp] theorem issueRead_msgReads (s : State) (a : Word) : (s.issueRead a).msgReads = a :: s.msgReads := rfl
@[simp] theorem issueRead_hostReads (s : State) (a : Word) : (s.issueRead a).hostReads = s.hostReads := rfl
@[simp] theorem issueRead_draws (s : State) (a : Word) : (s.issueRead a).draws = if s.raceValues a = [] then s.draws else s.draws + 1 := rfl
@[simp] theorem issueRead_events (s : State) (a : Word) : (s.issueRead a).events = s.events := rfl

@[simp] theorem advance_params (s : State) (acc : Word) : (s.advance acc).params = s.params := rfl
@[simp] theorem advance_ie (s : State) (acc : Word) : (s.advance acc).ie = s.ie := rfl
@[simp] theorem advance_status (s : State) (acc : Word) : (s.advance acc).status = s.status := rfl
@[simp] theorem advance_poly (s : State) (acc : Word) : (s.advance acc).poly = s.poly := rfl
@[simp] theorem advance_init (s : State) (acc : Word) : (s.advance acc).init = s.init := rfl
@[simp] theorem advance_fxor (s : State) (acc : Word) : (s.advance acc).fxor = s.fxor := rfl
@[simp] theorem advance_addr (s : State) (acc : Word) : (s.advance acc).addr = s.addr := rfl
@[simp] theorem advance_len (s : State) (acc : Word) : (s.advance acc).len = s.len := rfl
@[simp] theorem advance_result (s : State) (acc : Word) : (s.advance acc).result = s.result := rfl
@[simp] theorem advance_idx (s : State) (acc : Word) : (s.advance acc).idx = s.idx := rfl
@[simp] theorem advance_faddr (s : State) (acc : Word) : (s.advance acc).faddr = s.faddr := rfl
@[simp] theorem advance_tbl (s : State) (acc : Word) : (s.advance acc).tbl = s.tbl := rfl
@[simp] theorem advance_w (s : State) (acc : Word) : (s.advance acc).w = { s.w with acc := acc, k := s.w.k + 1#32 } := rfl
@[simp] theorem advance_mem (s : State) (acc : Word) : (s.advance acc).mem = s.mem := rfl
@[simp] theorem advance_unsynced (s : State) (acc : Word) : (s.advance acc).unsynced = s.unsynced := rfl
@[simp] theorem advance_window (s : State) (acc : Word) : (s.advance acc).window = s.window := rfl
@[simp] theorem advance_msgReads (s : State) (acc : Word) : (s.advance acc).msgReads = s.msgReads := rfl
@[simp] theorem advance_hostReads (s : State) (acc : Word) : (s.advance acc).hostReads = s.hostReads := rfl
@[simp] theorem advance_draws (s : State) (acc : Word) : (s.advance acc).draws = s.draws := rfl
@[simp] theorem advance_events (s : State) (acc : Word) : (s.advance acc).events = s.events := rfl

@[simp] theorem tableStep_params (s : State) : (tableStep s).params = s.params := rfl
@[simp] theorem tableStep_ie (s : State) : (tableStep s).ie = s.ie := rfl
@[simp] theorem tableStep_status (s : State) : (tableStep s).status = s.status := rfl
@[simp] theorem tableStep_poly (s : State) : (tableStep s).poly = s.poly := rfl
@[simp] theorem tableStep_init (s : State) : (tableStep s).init = s.init := rfl
@[simp] theorem tableStep_fxor (s : State) : (tableStep s).fxor = s.fxor := rfl
@[simp] theorem tableStep_addr (s : State) : (tableStep s).addr = s.addr := rfl
@[simp] theorem tableStep_len (s : State) : (tableStep s).len = s.len := rfl
@[simp] theorem tableStep_result (s : State) : (tableStep s).result = s.result := rfl
@[simp] theorem tableStep_idx (s : State) : (tableStep s).idx = s.idx := rfl
@[simp] theorem tableStep_faddr (s : State) : (tableStep s).faddr = s.faddr := rfl
@[simp] theorem tableStep_tbl (s : State) : (tableStep s).tbl = tblSet s.tbl (s.w.k.setWidth 8) (tableEntry s.w.s s.w.poly (s.w.k.setWidth 8)) := rfl
@[simp] theorem tableStep_w (s : State) : (tableStep s).w = { s.w with k := s.w.k + 1#32 } := rfl
@[simp] theorem tableStep_mem (s : State) : (tableStep s).mem = s.mem := rfl
@[simp] theorem tableStep_unsynced (s : State) : (tableStep s).unsynced = s.unsynced := rfl
@[simp] theorem tableStep_window (s : State) : (tableStep s).window = s.window := rfl
@[simp] theorem tableStep_msgReads (s : State) : (tableStep s).msgReads = s.msgReads := rfl
@[simp] theorem tableStep_hostReads (s : State) : (tableStep s).hostReads = s.hostReads := rfl
@[simp] theorem tableStep_draws (s : State) : (tableStep s).draws = s.draws := rfl
@[simp] theorem tableStep_events (s : State) : (tableStep s).events = s.events := rfl

@[simp] theorem busWrite_params (a : Word) (b : Byte) (s : State) : (busWrite a b s).params = s.params := rfl
@[simp] theorem busWrite_ie (a : Word) (b : Byte) (s : State) : (busWrite a b s).ie = s.ie := rfl
@[simp] theorem busWrite_status (a : Word) (b : Byte) (s : State) : (busWrite a b s).status = s.status := rfl
@[simp] theorem busWrite_poly (a : Word) (b : Byte) (s : State) : (busWrite a b s).poly = s.poly := rfl
@[simp] theorem busWrite_init (a : Word) (b : Byte) (s : State) : (busWrite a b s).init = s.init := rfl
@[simp] theorem busWrite_fxor (a : Word) (b : Byte) (s : State) : (busWrite a b s).fxor = s.fxor := rfl
@[simp] theorem busWrite_addr (a : Word) (b : Byte) (s : State) : (busWrite a b s).addr = s.addr := rfl
@[simp] theorem busWrite_len (a : Word) (b : Byte) (s : State) : (busWrite a b s).len = s.len := rfl
@[simp] theorem busWrite_result (a : Word) (b : Byte) (s : State) : (busWrite a b s).result = s.result := rfl
@[simp] theorem busWrite_idx (a : Word) (b : Byte) (s : State) : (busWrite a b s).idx = s.idx := rfl
@[simp] theorem busWrite_faddr (a : Word) (b : Byte) (s : State) : (busWrite a b s).faddr = s.faddr := rfl
@[simp] theorem busWrite_tbl (a : Word) (b : Byte) (s : State) : (busWrite a b s).tbl = s.tbl := rfl
@[simp] theorem busWrite_w (a : Word) (b : Byte) (s : State) : (busWrite a b s).w = s.w := rfl
@[simp] theorem busWrite_mem (a : Word) (b : Byte) (s : State) : (busWrite a b s).mem = s.mem.write a.toNat b := rfl
@[simp] theorem busWrite_unsynced (a : Word) (b : Byte) (s : State) : (busWrite a b s).unsynced = (a.toNat, s.mem.read a.toNat) :: s.unsynced := rfl
@[simp] theorem busWrite_window (a : Word) (b : Byte) (s : State) : (busWrite a b s).window = if s.status.busy then (a.toNat, s.mem.read a.toNat) :: s.window else s.window := rfl
@[simp] theorem busWrite_msgReads (a : Word) (b : Byte) (s : State) : (busWrite a b s).msgReads = s.msgReads := rfl
@[simp] theorem busWrite_hostReads (a : Word) (b : Byte) (s : State) : (busWrite a b s).hostReads = s.hostReads := rfl
@[simp] theorem busWrite_draws (a : Word) (b : Byte) (s : State) : (busWrite a b s).draws = s.draws := rfl
@[simp] theorem busWrite_events (a : Word) (b : Byte) (s : State) : (busWrite a b s).events = s.events := rfl

@[simp] theorem makeVisible_params (s : State) : (makeVisible s).params = s.params := rfl
@[simp] theorem makeVisible_ie (s : State) : (makeVisible s).ie = s.ie := rfl
@[simp] theorem makeVisible_status (s : State) : (makeVisible s).status = s.status := rfl
@[simp] theorem makeVisible_poly (s : State) : (makeVisible s).poly = s.poly := rfl
@[simp] theorem makeVisible_init (s : State) : (makeVisible s).init = s.init := rfl
@[simp] theorem makeVisible_fxor (s : State) : (makeVisible s).fxor = s.fxor := rfl
@[simp] theorem makeVisible_addr (s : State) : (makeVisible s).addr = s.addr := rfl
@[simp] theorem makeVisible_len (s : State) : (makeVisible s).len = s.len := rfl
@[simp] theorem makeVisible_result (s : State) : (makeVisible s).result = s.result := rfl
@[simp] theorem makeVisible_idx (s : State) : (makeVisible s).idx = s.idx := rfl
@[simp] theorem makeVisible_faddr (s : State) : (makeVisible s).faddr = s.faddr := rfl
@[simp] theorem makeVisible_tbl (s : State) : (makeVisible s).tbl = s.tbl := rfl
@[simp] theorem makeVisible_w (s : State) : (makeVisible s).w = s.w := rfl
@[simp] theorem makeVisible_mem (s : State) : (makeVisible s).mem = s.mem := rfl
@[simp] theorem makeVisible_unsynced (s : State) : (makeVisible s).unsynced = [] := rfl
@[simp] theorem makeVisible_window (s : State) : (makeVisible s).window = if s.status.busy then s.unsynced ++ s.window else s.window := rfl
@[simp] theorem makeVisible_msgReads (s : State) : (makeVisible s).msgReads = s.msgReads := rfl
@[simp] theorem makeVisible_hostReads (s : State) : (makeVisible s).hostReads = s.hostReads := rfl
@[simp] theorem makeVisible_draws (s : State) : (makeVisible s).draws = s.draws := rfl
@[simp] theorem makeVisible_events (s : State) : (makeVisible s).events = s.events := rfl

@[simp] theorem takeEvent_params (s : State) : (takeEvent s).params = s.params := rfl
@[simp] theorem takeEvent_ie (s : State) : (takeEvent s).ie = s.ie := rfl
@[simp] theorem takeEvent_status (s : State) : (takeEvent s).status = s.status := rfl
@[simp] theorem takeEvent_poly (s : State) : (takeEvent s).poly = s.poly := rfl
@[simp] theorem takeEvent_init (s : State) : (takeEvent s).init = s.init := rfl
@[simp] theorem takeEvent_fxor (s : State) : (takeEvent s).fxor = s.fxor := rfl
@[simp] theorem takeEvent_addr (s : State) : (takeEvent s).addr = s.addr := rfl
@[simp] theorem takeEvent_len (s : State) : (takeEvent s).len = s.len := rfl
@[simp] theorem takeEvent_result (s : State) : (takeEvent s).result = s.result := rfl
@[simp] theorem takeEvent_idx (s : State) : (takeEvent s).idx = s.idx := rfl
@[simp] theorem takeEvent_faddr (s : State) : (takeEvent s).faddr = s.faddr := rfl
@[simp] theorem takeEvent_tbl (s : State) : (takeEvent s).tbl = s.tbl := rfl
@[simp] theorem takeEvent_w (s : State) : (takeEvent s).w = s.w := rfl
@[simp] theorem takeEvent_mem (s : State) : (takeEvent s).mem = s.mem := rfl
@[simp] theorem takeEvent_unsynced (s : State) : (takeEvent s).unsynced = s.unsynced := rfl
@[simp] theorem takeEvent_window (s : State) : (takeEvent s).window = s.window := rfl
@[simp] theorem takeEvent_msgReads (s : State) : (takeEvent s).msgReads = s.msgReads := rfl
@[simp] theorem takeEvent_hostReads (s : State) : (takeEvent s).hostReads = s.hostReads := rfl
@[simp] theorem takeEvent_draws (s : State) : (takeEvent s).draws = s.draws := rfl
@[simp] theorem takeEvent_events (s : State) : (takeEvent s).events = s.events.tail := rfl

@[simp] theorem presentNext_params (c : Word) (s : State) : (presentNext c s).params = s.params := rfl
@[simp] theorem presentNext_ie (c : Word) (s : State) : (presentNext c s).ie = s.ie := rfl
@[simp] theorem presentNext_status (c : Word) (s : State) : (presentNext c s).status = { s.status with busy := false } := rfl
@[simp] theorem presentNext_poly (c : Word) (s : State) : (presentNext c s).poly = s.poly := rfl
@[simp] theorem presentNext_init (c : Word) (s : State) : (presentNext c s).init = s.init := rfl
@[simp] theorem presentNext_fxor (c : Word) (s : State) : (presentNext c s).fxor = s.fxor := rfl
@[simp] theorem presentNext_addr (c : Word) (s : State) : (presentNext c s).addr = s.addr := rfl
@[simp] theorem presentNext_len (c : Word) (s : State) : (presentNext c s).len = s.len := rfl
@[simp] theorem presentNext_result (c : Word) (s : State) : (presentNext c s).result = s.result := rfl
@[simp] theorem presentNext_idx (c : Word) (s : State) : (presentNext c s).idx = s.idx := rfl
@[simp] theorem presentNext_faddr (c : Word) (s : State) : (presentNext c s).faddr = s.faddr := rfl
@[simp] theorem presentNext_tbl (c : Word) (s : State) : (presentNext c s).tbl = s.tbl := rfl
@[simp] theorem presentNext_w (c : Word) (s : State) : (presentNext c s).w = s.w := rfl
@[simp] theorem presentNext_mem (c : Word) (s : State) : (presentNext c s).mem = s.mem := rfl
@[simp] theorem presentNext_unsynced (c : Word) (s : State) : (presentNext c s).unsynced = s.unsynced := rfl
@[simp] theorem presentNext_window (c : Word) (s : State) : (presentNext c s).window = s.window := rfl
@[simp] theorem presentNext_msgReads (c : Word) (s : State) : (presentNext c s).msgReads = s.msgReads := rfl
@[simp] theorem presentNext_hostReads (c : Word) (s : State) : (presentNext c s).hostReads = s.hostReads := rfl
@[simp] theorem presentNext_draws (c : Word) (s : State) : (presentNext c s).draws = s.draws := rfl
@[simp] theorem presentNext_events (c : Word) (s : State) : (presentNext c s).events = .hostWrite (Reg.cmd.access s.params.crcBase) c :: s.events := rfl

@[simp] theorem rstStep_params (s : State) : (rstStep s).params = s.params := rfl
@[simp] theorem rstStep_ie (s : State) : (rstStep s).ie = false := rfl
@[simp] theorem rstStep_status (s : State) : (rstStep s).status = Status.zero := rfl
@[simp] theorem rstStep_poly (s : State) : (rstStep s).poly = 0#32 := rfl
@[simp] theorem rstStep_init (s : State) : (rstStep s).init = 0#32 := rfl
@[simp] theorem rstStep_fxor (s : State) : (rstStep s).fxor = 0#32 := rfl
@[simp] theorem rstStep_addr (s : State) : (rstStep s).addr = 0#32 := rfl
@[simp] theorem rstStep_len (s : State) : (rstStep s).len = 0#32 := rfl
@[simp] theorem rstStep_result (s : State) : (rstStep s).result = 0#32 := rfl
@[simp] theorem rstStep_idx (s : State) : (rstStep s).idx = 0#8 := rfl
@[simp] theorem rstStep_faddr (s : State) : (rstStep s).faddr = 0#32 := rfl
@[simp] theorem rstStep_tbl (s : State) : (rstStep s).tbl = tableAfterReset s.draws := rfl
@[simp] theorem rstStep_w (s : State) : (rstStep s).w = workingAfterReset s.draws := rfl
@[simp] theorem rstStep_mem (s : State) : (rstStep s).mem = s.mem := rfl
@[simp] theorem rstStep_unsynced (s : State) : (rstStep s).unsynced = s.unsynced := rfl
@[simp] theorem rstStep_window (s : State) : (rstStep s).window = [] := rfl
@[simp] theorem rstStep_msgReads (s : State) : (rstStep s).msgReads = s.msgReads := rfl
@[simp] theorem rstStep_hostReads (s : State) : (rstStep s).hostReads = s.hostReads := rfl
@[simp] theorem rstStep_draws (s : State) : (rstStep s).draws = s.draws + 1 := rfl
@[simp] theorem rstStep_events (s : State) : (rstStep s).events = s.events := rfl

/-! ### A register write: what no host write changes -/

@[simp] theorem writeReg_params (v : Word) (s : State) (r : Reg) : (writeReg v s r).params = s.params := by cases r <;> rfl
@[simp] theorem writeReg_result (v : Word) (s : State) (r : Reg) : (writeReg v s r).result = s.result := by cases r <;> rfl
@[simp] theorem writeReg_faddr (v : Word) (s : State) (r : Reg) : (writeReg v s r).faddr = s.faddr := by cases r <;> rfl
@[simp] theorem writeReg_tbl (v : Word) (s : State) (r : Reg) : (writeReg v s r).tbl = s.tbl := by cases r <;> rfl
@[simp] theorem writeReg_w (v : Word) (s : State) (r : Reg) : (writeReg v s r).w = s.w := by cases r <;> rfl
@[simp] theorem writeReg_mem (v : Word) (s : State) (r : Reg) : (writeReg v s r).mem = s.mem := by cases r <;> rfl
@[simp] theorem writeReg_unsynced (v : Word) (s : State) (r : Reg) : (writeReg v s r).unsynced = s.unsynced := by cases r <;> rfl
@[simp] theorem writeReg_window (v : Word) (s : State) (r : Reg) : (writeReg v s r).window = s.window := by cases r <;> rfl
@[simp] theorem writeReg_msgReads (v : Word) (s : State) (r : Reg) : (writeReg v s r).msgReads = s.msgReads := by cases r <;> rfl
@[simp] theorem writeReg_hostReads (v : Word) (s : State) (r : Reg) : (writeReg v s r).hostReads = s.hostReads := by cases r <;> rfl
@[simp] theorem writeReg_draws (v : Word) (s : State) (r : Reg) : (writeReg v s r).draws = s.draws := by cases r <;> rfl
@[simp] theorem writeReg_events (v : Word) (s : State) (r : Reg) : (writeReg v s r).events = s.events := by cases r <;> rfl
@[simp] theorem writeReg_status_busy (v : Word) (s : State) (r : Reg) : (writeReg v s r).status.busy = s.status.busy := by cases r <;> rfl
@[simp] theorem writeReg_status_tvalid (v : Word) (s : State) (r : Reg) : (writeReg v s r).status.tvalid = s.status.tvalid := by cases r <;> rfl

end

end Sys2Proof.Machine
end

