-- ==== Sys2Proof/Laws/Ops.lean ====
section
/-! SUPPORT. One lemma per shared operation that says everything the operation can do. -/

namespace Sys2Proof.Machine

section ReadPort

theorem pickByte_nil (c : Byte) (n : Nat) : pickByte c [] n = c := rfl

/-- A racing byte reads as its content or as one of the other values it held. -/
theorem pickByte_mem (c : Byte) (others : List Byte) (n : Nat) : pickByte c others n ∈ c :: others := by
  cases others with
  | nil => simp [pickByte]
  | cons b bs =>
    have h : n % (bs.length + 2) < (c :: b :: bs).length := by
      simpa using Nat.mod_lt n (Nat.succ_pos (bs.length + 1))
    simp only [pickByte, List.getD_eq_getElem?_getD, List.getElem?_eq_getElem h, Option.getD_some]
    exact List.getElem_mem h

/-- Where the schedule writes no memory, no later value is admitted. -/
theorem heldLater_settled {es : List Event} (h : ∀ e ∈ es, e.writesMemory = false) (a n : Nat) :
    heldLater a n es = [] := by
  induction es generalizing n with
  | nil => cases n <;> rfl
  | cons e es ih =>
    have ht : ∀ n, heldLater a n es = [] := fun n => ih (fun d hd => h d (by simp [hd])) n
    have he : e.writesMemory = false := h e (by simp)
    cases n with
    | zero => rfl
    | succ n => cases e <;> simp_all [heldLater, Event.writesMemory]

/-- A byte does not race when every write is visible and none falls into the command. -/
theorem raceValues_settled {s : State} (hw : s.window = []) (hs : s.settled) (a : Word) :
    s.raceValues a = [] := by
  simp [State.raceValues, heldBefore, hw, hs.1, heldLater_settled hs.2]

/-- Everything the read port can answer (20_memory.md R62). -/
theorem memRead_cases (s : State) (a : Word) :
    (busErrAt s.params a = true ∧ s.memRead a = .busError) ∨
    (busErrAt s.params a = false ∧ ∃ b, s.memRead a = .byte b ∧
      b ∈ s.mem.read a.toNat :: s.raceValues a) := by
  by_cases h : busErrAt s.params a = true
  · exact .inl ⟨h, by simp [State.memRead, h]⟩
  · exact .inr ⟨by simpa using h,
      pickByte (s.mem.read a.toNat) (s.raceValues a) (Config.raceChoice s.draws),
      by simp [State.memRead, h], pickByte_mem _ _ _⟩

/-- Without a bus error and without a race, a read gives the content. -/
theorem memRead_content {s : State} {a : Word} (he : busErrAt s.params a = false)
    (hr : s.raceValues a = []) : s.memRead a = .byte (s.mem.read a.toNat) := by
  simp [State.memRead, he, hr, pickByte_nil]

/-- Everything an engine step over a message byte can do. -/
theorem byteStep_cases (f : Word → Byte → Word) (s : State) :
    (busErrAt s.params s.byteAddr = true ∧
      byteStep f s = raise (.busError s.byteAddr) (s.issueRead s.byteAddr)) ∨
    (busErrAt s.params s.byteAddr = false ∧ ∃ b,
      b ∈ s.mem.read s.byteAddr.toNat :: s.raceValues s.byteAddr ∧
      byteStep f s = (s.issueRead s.byteAddr).advance (f s.w.acc b)) := by
  rcases memRead_cases s s.byteAddr with ⟨he, hr⟩ | ⟨he, b, hr, hb⟩
  · exact .inl ⟨he, by simp [byteStep, hr]⟩
  · exact .inr ⟨he, b, hb, by simp [byteStep, hr]⟩

theorem byteStep_content {s : State} (f : Word → Byte → Word)
    (he : busErrAt s.params s.byteAddr = false) (hr : s.raceValues s.byteAddr = []) :
    byteStep f s = (s.issueRead s.byteAddr).advance (f s.w.acc (s.mem.read s.byteAddr.toNat)) := by
  simp [byteStep, memRead_content he hr]

theorem messageStep_byte {s : State} (f : Word → Byte → Word) (v : Word) (h : s.w.k < s.w.len) :
    messageStep f v s = byteStep f s := by
  simp [messageStep, h]

theorem messageStep_complete {s : State} (f : Word → Byte → Word) (v : Word) (h : ¬ s.w.k < s.w.len) :
    messageStep f v s = completeResult v s := by
  simp [messageStep, h]

/-- The fields that no engine step over a message changes. -/
theorem messageStep_frame (f : Word → Byte → Word) (v : Word) (s : State) :
    (messageStep f v s).params = s.params ∧ (messageStep f v s).mem = s.mem ∧
    (messageStep f v s).tbl = s.tbl ∧ (messageStep f v s).window = s.window ∧
    (messageStep f v s).unsynced = s.unsynced ∧ (messageStep f v s).events = s.events ∧
    (messageStep f v s).status.tvalid = s.status.tvalid ∧
    (messageStep f v s).status.cmdLost = s.status.cmdLost := by
  unfold messageStep
  split
  · rcases byteStep_cases f s with ⟨-, h⟩ | ⟨-, b, -, h⟩ <;> simp [h]
  · simp

end ReadPort

section Commands

/-- An engine step of a command that reads the message. -/
theorem exec_busy {i : Instr} {s : State} (hi : readsMessage i = true) (hb : s.status.busy = true) :
    exec i s = .next (messageStep (byteUpdate i s) (finalValue i s) s) := by
  cases i <;>
    simp_all [exec, execDivs, execDivb, execTeval, execHweval, byteUpdate, finalValue, readsMessage]

theorem exec_busy_tbuild {strategy : Bool} {s : State} (hb : s.status.busy = true) :
    exec (.tbuild strategy) s = .next (if s.w.k < 256#32 then tableStep s else completeTable s) := by
  simp only [exec, execTbuild, hb, if_true]
  split <;> rfl

/-- The accumulator a command begins with: R104, R106, R126, R143; `TBUILD` leaves it (R122). -/
def seedOf (i : Instr) (s : State) : Word :=
  match i with
  | .divs => s.init
  | .divb => s.init
  | .tbuild _ => s.w.acc
  | .teval => 0#32
  | .hweval => s.init

/-- Acceptance of a command that is not refused for want of a table. -/
theorem exec_idle {i : Instr} {s : State} (hb : s.status.busy = false)
    (ht : i = .teval → s.status.tvalid = true) :
    exec i s = .next (accept i (opcodeOf i == 3#4) (seedOf i s) s) := by
  cases i <;> simp_all [exec, execDivs, execDivb, execTbuild, execTeval, execHweval, seedOf, opcodeOf]

theorem exec_idle_teval_invalid {s : State} (hb : s.status.busy = false) (ht : s.status.tvalid = false) :
    exec .teval s = .next (raise .tableInvalid (beginAcceptance s)) := by
  simp [exec, execTeval, hb, ht]

/-- Everything `exec` can do. -/
theorem exec_cases (i : Instr) (s : State) :
    (s.status.busy = true ∧ readsMessage i = true ∧
      exec i s = .next (messageStep (byteUpdate i s) (finalValue i s) s)) ∨
    (s.status.busy = true ∧ readsMessage i = false ∧
      exec i s = .next (if s.w.k < 256#32 then tableStep s else completeTable s)) ∨
    (s.status.busy = false ∧ (i = .teval → s.status.tvalid = true) ∧
      exec i s = .next (accept i (opcodeOf i == 3#4) (seedOf i s) s)) ∨
    (s.status.busy = false ∧ i = .teval ∧ s.status.tvalid = false ∧
      exec i s = .next (raise .tableInvalid (beginAcceptance s))) := by
  cases hb : s.status.busy with
  | true =>
    cases hi : readsMessage i with
    | true => exact .inl ⟨rfl, rfl, exec_busy hi hb⟩
    | false =>
      cases i <;> simp [readsMessage] at hi
      exact .inr (.inl ⟨rfl, rfl, exec_busy_tbuild hb⟩)
  | false =>
    by_cases h : i = .teval ∧ s.status.tvalid = false
    · obtain ⟨rfl, ht⟩ := h
      exact .inr (.inr (.inr ⟨rfl, rfl, ht, exec_idle_teval_invalid hb ht⟩))
    · have ht : i = .teval → s.status.tvalid = true := fun hi => by simpa [hi] using h
      exact .inr (.inr (.inl ⟨rfl, ht, exec_idle hb ht⟩))

end Commands

section Decoder

theorem commandOf_fields (i : Instr) : commandOf (opcodeOf i) (strategyOf i) = .ok i := by
  cases i <;> rfl

/-- Everything the case split of R84 can answer. -/
theorem commandOf_cases {op : BitVec 4} {s : Bool} {i : Instr} (h : commandOf op s = .ok i) :
    op = opcodeOf i ∧ s = strategyOf i := by
  have key : ∀ (op : BitVec 4) (s : Bool), ∀ i ∈ (commandOf op s).toOption,
      op = opcodeOf i ∧ s = strategyOf i := by decide
  exact key op s i (by simp [h, Except.toOption])

end Decoder

section RegisterPort

theorem regAt_offset (r : Reg) : regAt r.offset = some r := by
  cases r <;> rfl

theorem Reg.offset_lt (r : Reg) : r.offset < 64 := by
  cases r <;> decide

/-- The whole-word access to a slot reaches that slot. -/
theorem resolve_access (base : Word) (r : Reg) : resolve base (r.access base) = .ok r := by
  have hr := Reg.offset_lt r
  have h : ((r.access base).addr - base).toNat = r.offset := by
    have : (r.access base).addr - base = BitVec.ofNat 32 r.offset := by simp [Reg.access]
    rw [this, BitVec.toNat_ofNat, Nat.mod_eq_of_lt (by omega)]
  have hb : (r.access base).bits = 32 ∧ (r.access base).enables = 0xF#4 := ⟨rfl, rfl⟩
  simp only [resolve, h, Nat.not_le.2 hr, if_false, hb, and_self, if_true, regAt_offset]

/-- Everything a `CMD` write can do (60_exceptions.md R169). -/
theorem presentCommand_cases (c : Word) (s : State) :
    (s.status.busy = true ∧ presentCommand c s = .next (loseCommand s)) ∨
    (s.status.busy = false ∧ (∀ i, decode c ≠ .ok i) ∧
      presentCommand c s = .next (raise .illegalCmd (beginAcceptance s))) ∨
    (s.status.busy = false ∧ ∃ i, decode c = .ok i ∧ presentCommand c s = exec i s) := by
  cases hb : s.status.busy with
  | true => exact .inl ⟨rfl, by simp [presentCommand, hb]⟩
  | false =>
    cases hd : decode c with
    | error e => exact .inr (.inl ⟨rfl, by simp, by simp [presentCommand, hb, hd]⟩)
    | ok i => exact .inr (.inr ⟨rfl, i, rfl, by simp [presentCommand, hb, hd]⟩)

/-- Everything a host write can do. -/
theorem hostWrite_cases (a : Access) (v : Word) (s : State) :
    (∃ r, resolve s.params.crcBase a = .error r ∧ hostWrite a v s = .refused r) ∨
    (resolve s.params.crcBase a = .ok .cmd ∧ hostWrite a v s = presentCommand v s) ∨
    (∃ r, r ≠ .cmd ∧ resolve s.params.crcBase a = .ok r ∧ hostWrite a v s = .next (writeReg v s r)) := by
  cases hr : resolve s.params.crcBase a with
  | error r => exact .inl ⟨r, rfl, by simp [hostWrite, hr]⟩
  | ok r =>
    by_cases hc : r = .cmd
    · subst hc
      exact .inr (.inl ⟨rfl, by simp [hostWrite, hr]⟩)
    · exact .inr (.inr ⟨r, hc, rfl, by simp [hostWrite, hr, hc]⟩)

/-- Everything an engine step can do. -/
theorem engineStep_cases (s : State) :
    (s.status.busy = false ∧ engineStep s = .next s) ∨
    (s.status.busy = true ∧ (∀ i, commandOf s.w.op s.w.s ≠ .ok i) ∧
      engineStep s = .fault .corruptOpcode) ∨
    (s.status.busy = true ∧ ∃ i, commandOf s.w.op s.w.s = .ok i ∧ engineStep s = exec i s) := by
  cases hb : s.status.busy with
  | false => exact .inl ⟨rfl, by simp [engineStep, hb]⟩
  | true =>
    cases hc : commandOf s.w.op s.w.s with
    | error e => exact .inr (.inl ⟨rfl, by simp, by simp [engineStep, hb, hc]⟩)
    | ok i => exact .inr (.inr ⟨rfl, i, rfl, by simp [engineStep, hb, hc]⟩)

end RegisterPort

section TableRam

/-- What every entry holds after one entry is written. -/
theorem tblGet_tblSet (t : Vector Word 256) (i j : Byte) (v : Word) :
    tblGet (tblSet t i v) j = if j = i then v else tblGet t j := by
  unfold tblGet tblSet
  rw [Vector.getElem_set]
  by_cases h : j = i
  · simp [h]
  · have hne : i.toNat ≠ j.toNat := fun e => h (BitVec.eq_of_toNat_eq e.symm)
    simp [h, hne]

theorem tblGet_buildTable (strategy : Bool) (p : Word) (i : Byte) :
    tblGet (buildTable strategy p) i = tableEntry strategy p i := by
  simp [tblGet, buildTable]

end TableRam

section Agents

/-- Every command has a next state in every state. -/
theorem exec_next (i : Instr) (s : State) : ∃ t, exec i s = .next t := by
  rcases exec_cases i s with ⟨-, -, e⟩ | ⟨-, -, e⟩ | ⟨-, -, e⟩ | ⟨-, -, -, e⟩ <;> exact ⟨_, e⟩

/-- Everything a step of an agent that goes on can do. -/
theorem agentStep_cases {e : Event} {s t : State} (h : agentStep e s = .next t) :
    (∃ a r, e = .hostRead a ∧ resolve s.params.crcBase a = .ok r ∧
      t = { s with hostReads := (a.addr, readReg s r) :: s.hostReads }) ∨
    (∃ a v, e = .hostWrite a v ∧ resolve s.params.crcBase a = .ok .cmd ∧ s.status.busy = true ∧
      t = loseCommand s) ∨
    (∃ a v, e = .hostWrite a v ∧ resolve s.params.crcBase a = .ok .cmd ∧ s.status.busy = false ∧
      (∀ i, decode v ≠ .ok i) ∧ t = raise .illegalCmd (beginAcceptance s)) ∨
    (∃ a v i, e = .hostWrite a v ∧ resolve s.params.crcBase a = .ok .cmd ∧ s.status.busy = false ∧
      decode v = .ok i ∧ exec i s = .next t) ∨
    (∃ a v r, e = .hostWrite a v ∧ resolve s.params.crcBase a = .ok r ∧ r ≠ .cmd ∧
      t = writeReg v s r) ∨
    (e = .engine ∧ s.status.busy = false ∧ t = s) ∨
    (e = .engine ∧ s.status.busy = true ∧ ∃ i, commandOf s.w.op s.w.s = .ok i ∧
      exec i s = .next t) ∨
    (e = .rst ∧ t = rstStep s) ∨
    (∃ a b, e = .busWrite a b ∧ t = busWrite a b s) ∨
    (e = .makeVisible ∧ t = makeVisible s) := by
  cases e with
  | hostRead a =>
    cases hr : resolve s.params.crcBase a with
    | error r => simp [agentStep, hostRead, hr] at h
    | ok r =>
      simp only [agentStep, hostRead, hr] at h
      cases h
      exact .inl ⟨a, r, rfl, hr, rfl⟩
  | hostWrite a v =>
    rcases hostWrite_cases a v s with ⟨r, -, e⟩ | ⟨hr, e⟩ | ⟨r, hc, hr, e⟩ <;> rw [agentStep, e] at h
    · cases h
    · rcases presentCommand_cases v s with ⟨hb, e⟩ | ⟨hb, hd, e⟩ | ⟨hb, i, hd, e⟩ <;> rw [e] at h
      · cases h
        exact .inr (.inl ⟨a, v, rfl, hr, hb, rfl⟩)
      · cases h
        exact .inr (.inr (.inl ⟨a, v, rfl, hr, hb, hd, rfl⟩))
      · exact .inr (.inr (.inr (.inl ⟨a, v, i, rfl, hr, hb, hd, h⟩)))
    · cases h
      exact .inr (.inr (.inr (.inr (.inl ⟨a, v, r, rfl, hr, hc, rfl⟩))))
  | engine =>
    rcases engineStep_cases s with ⟨hb, e⟩ | ⟨-, -, e⟩ | ⟨hb, i, hc, e⟩ <;> rw [agentStep, e] at h
    · cases h
      simp [hb]
    · cases h
    · simp only [reduceCtorEq, false_and, exists_false, false_or, true_and, hb, Bool.true_eq_false,
        or_false]
      exact ⟨i, hc, h⟩
  | rst =>
    cases h
    simp
  | busWrite a b =>
    cases h
    simp
  | makeVisible =>
    cases h
    simp

end Agents

section Step

/-- A step takes the next event off the schedule and runs it. -/
theorem step_cons {s : State} {e : Event} {es : List Event} (h : s.events = e :: es) :
    step s = agentStep e { s with events := es } := by
  simp [step, nextEvent, takeEvent, h]

/-- With an empty schedule a step is an engine step. -/
theorem step_nil {s : State} (h : s.events = []) : step s = engineStep s := by
  have : takeEvent s = s := by cases s; simp_all [takeEvent]
  simp [step, nextEvent, h, agentStep, this]

theorem engineStep_busy {s : State} {i : Instr} (hb : s.status.busy = true)
    (hc : commandOf s.w.op s.w.s = .ok i) : engineStep s = exec i s := by
  simp [engineStep, hb, hc]

end Step

section Run

theorem runCommand_zero (i : Instr) (s : State) : runCommand i 0 s = .next s := rfl

theorem runCommand_succ {i : Instr} {n : Nat} {s t : State} (h : exec i s = .next t) :
    runCommand i (n + 1) s = runCommand i n t := by
  simp [runCommand, h]

theorem runSteps_zero (s : State) : runSteps 0 s = .next s := rfl

theorem runSteps_succ {n : Nat} {s t : State} (h : step s = .next t) :
    runSteps (n + 1) s = runSteps n t := by
  simp [runSteps, h]

theorem coreRun_next {M : Host.Core} {n : Nat} {s t : M.State} (h : M.step s = .next t) :
    M.run (n + 1) s = M.run n t := by
  simp [Host.Core.run, h]

theorem coreRun_fault {M : Host.Core} {n : Nat} {s : M.State} {r : M.Fault} (h : M.step s = .fault r) :
    M.run (n + 1) s = .fault r := by
  simp [Host.Core.run, h]

theorem coreRun_refused {M : Host.Core} {n : Nat} {s : M.State} {r : M.Refusal}
    (h : M.step s = .refused r) : M.run (n + 1) s = .refused r := by
  simp [Host.Core.run, h]

/-- `runSteps` is the host's run of this machine. -/
theorem runSteps_eq_coreRun (n : Nat) (s : State) : runSteps n s = core.run n s := by
  induction n generalizing s with
  | zero => rfl
  | succ n ih =>
    cases h : step s with
    | next t => exact (runSteps_succ h).trans ((ih t).trans (coreRun_next (M := core) h).symm)
    | fault r =>
      have hl : runSteps (n + 1) s = .fault r := by simp [runSteps, h]
      exact hl.trans (coreRun_fault (M := core) h).symm
    | refused r =>
      have hl : runSteps (n + 1) s = .refused r := by simp [runSteps, h]
      exact hl.trans (coreRun_refused (M := core) h).symm

end Run

end Sys2Proof.Machine
end

