-- ==== Sys2Proof/Laws/PerInstr.lean ====
section
/-! SUPPORT. Facts about every command, one lemma per constructor: where R81 puts the fields of its word. -/

namespace Sys2Proof.Laws.WordFields

/-- The word of a command holds its opcode in `OP`, its strategy bit in `S` and 0 in `RSV` (R81). -/
def Statement (i : Instr) : Prop :=
  opField (encode i) = opcodeOf i ∧ strategyField (encode i) = strategyOf i ∧
    reservedField (encode i) = 0#27

theorem divs : Statement .divs := by unfold Statement; decide
theorem divb : Statement .divb := by unfold Statement; decide
theorem tbuild (s : Bool) : Statement (.tbuild s) := by cases s <;> (unfold Statement; decide)
theorem teval : Statement .teval := by unfold Statement; decide
theorem hweval : Statement .hweval := by unfold Statement; decide

end Sys2Proof.Laws.WordFields
end

