-- ==== Sys2Proof/Tests/Slice0.lean ====
section
/-! SUPPORT. The model's own tests, with expected values from spec/95_test_vectors.md and 30_encoding.md, and one witness
per hypothesis of the statements. -/

namespace Sys2Proof.Machine.Tests

section Helpers

/-- An outcome is a next state with property `p`. -/
def gives (p : State → Bool) : Host.Outcome State Fault Refusal → Bool
  | .next t => p t
  | .fault _ => false
  | .refused _ => false

/-- An idle core with the operands of vector V6 over the two bytes `01 00` at `0x1000`. -/
def idleState : State :=
  { State.reset with
    poly := 0x04C11DB7#32, init := 0x80000000#32, addr := 0x1000#32, len := 2#32
    mem := [(0x1000, 0x01#8)] }

/-- The identity table. -/
def identityTable : Vector Word 256 := Vector.ofFn fun i => zext32 (BitVec.ofNat 8 i.val)

theorem identityTable_get (i : Byte) : tblGet identityTable i = zext32 i := by
  simp [tblGet, identityTable]

/-- `idleState` with a valid table. -/
def tabledState : State :=
  { idleState with tbl := identityTable, status := { Status.zero with tvalid := true } }

/-- A core that runs command `i`, at index `k` of `idleState`'s message. -/
def runningState (i : Instr) (k : Word) : State :=
  { idleState with
    status := { Status.zero with busy := true }
    w := { snapshot i 0x80000000#32 idleState with k := k } }

/-- Every read of the platform answers with a bus error. -/
def busErrorEverywhere (s : State) : State :=
  { s with params := { s.params with busErr := [(0x00000000#32, 0xFFFFFFFF#32)] } }

/-- A `CMD` write by the host. -/
def cmdWrite (c : Word) : Event := .hostWrite (Reg.cmd.access Config.reference.crcBase) c

end Helpers

section WellFormedSmoke

theorem test_unknown_mnemonic_refused : AsmLine.mnemonicKnown ⟨"divs", none⟩ = false := by decide
theorem test_operand_on_divs_refused : AsmLine.operandAllowed ⟨"DIVS", some 0⟩ = false := by decide
theorem test_operand_two_refused : AsmLine.operandInRange ⟨"TBUILD", some 2⟩ = false := by decide
theorem test_ill_formed_lines_have_no_word :
    AsmLine.assemble ⟨"divs", none⟩ = none ∧ AsmLine.assemble ⟨"DIVS", some 0⟩ = none ∧
    AsmLine.assemble ⟨"TBUILD", some 2⟩ = none := by decide
theorem test_absent_operand_is_zero :
    AsmLine.assemble ⟨"TBUILD", none⟩ = AsmLine.assemble ⟨"TBUILD", some 0⟩ := by decide

end WellFormedSmoke

section DecodeWords

/-! Each word is written from the fields of R81: `RSV` 27 zeros, `S`, `OP`. -/

theorem test_decode_divs : decode 0b000000000000000000000000000_0_0001#32 = .ok .divs := by decide
theorem test_decode_divb : decode 0b000000000000000000000000000_0_0010#32 = .ok .divb := by decide
theorem test_decode_tbuild_0 :
    decode 0b000000000000000000000000000_0_0011#32 = .ok (.tbuild false) := by decide
theorem test_decode_tbuild_1 :
    decode 0b000000000000000000000000000_1_0011#32 = .ok (.tbuild true) := by decide
theorem test_decode_teval : decode 0b000000000000000000000000000_0_0100#32 = .ok .teval := by decide
theorem test_decode_hweval : decode 0b000000000000000000000000000_0_0101#32 = .ok .hweval := by decide

/-- The illegal rows of 95_test_vectors.md L2.0. -/
theorem test_decode_illegal_words :
    [0x00000000#32, 0x00000006#32, 0x0000000F#32, 0x00000010#32].map decode =
      List.replicate 4 (.error .opcode) ∧
    [0x00000011#32, 0x00000012#32, 0x00000014#32, 0x00000015#32].map decode =
      List.replicate 4 (.error .strategyBit) ∧
    [0x00000020#32, 0x00000023#32, 0x00000103#32, 0x80000001#32, 0xFFFFFFFF#32].map decode =
      List.replicate 5 (.error .reservedBits) := by decide

theorem test_decode_needs_one_word :
    decodeBytes [] = .error .notOneWord ∧ decodeBytes [0x01#8] = .error .notOneWord ∧
    decodeBytes [0x01#8, 0#8, 0#8, 0#8, 0#8] = .error .notOneWord := by decide

theorem test_table_words :
    decodeTableWord 32 0x01 = some .divs ∧ decodeTableWord 32 0x02 = some .divb ∧
    decodeTableWord 32 0x03 = some (.tbuild false) ∧ decodeTableWord 32 0x04 = some .teval ∧
    decodeTableWord 32 0x05 = some .hweval ∧ decodeTableWord 32 0x06 = none := by decide

end DecodeWords

section Instructions

/-- Vector V6 (L2.1): the seed's top bit applies the polynomial in the first step. -/
theorem test_divs_first_byte :
    gives (fun t => t.w.acc = 0x690CE0EF#32 && t.w.k = 1#32)
      (execDivs (runningState .divs 0#32)) = true := by decide

/-- The completion applies `w[FXOR]`, not `FXOR`. -/
theorem test_divs_completion :
    gives (fun t => t.result = 0x7FFFFFFF#32 && t.status.word = 0x00000002#32)
      (execDivs { runningState .divs 2#32 with
        w := { (runningState .divs 2#32).w with fxor := 0xFFFFFFFF#32 } }) = true := by decide

/-- Vector V7 (L2.1): the message bit enters at bit 0. -/
theorem test_divb_zero_byte :
    divByteB 0x04C11DB7#32 0x80000000#32 0x00#8 = 0x690CE0EE#32 := by decide

/-- Row `0x00000002` of L2.0, table valid. -/
theorem test_divb_acceptance :
    gives (fun t => t.status.word = 0x00000101#32 && t.w.acc = 0x80000000#32)
      (execDivb tabledState) = true := by decide

/-- L2.2: entry `0x80` for `P = 0x04C11DB7`, by both strategies. -/
theorem test_tbuild_entry :
    tableEntry false 0x04C11DB7#32 0x80#8 = 0x00000080#32 ∧
    tableEntry true 0x04C11DB7#32 0x80#8 = 0x00000080#32 := by decide

/-- Row `0x00000013` of L2.0, table valid: `TVALID` is cleared. -/
theorem test_tbuild_acceptance :
    gives (fun t => t.status.word = 0x00000001#32 && t.w.s) (execTbuild true tabledState) = true := by
  decide

/-- L1.3's trace: byte `A4` from accumulator `0xA0A1A2A3`. -/
theorem test_teval_byte : tblByte identityTable 0xA0A1A2A3#32 0xA4#8 = 0xA1A2A304#32 := by
  rw [tblByte, identityTable_get]; decide

/-- Row `0x00000004` of L2.0, no table. -/
theorem test_teval_without_table :
    gives (fun t => t.status.word = 0x00000026#32) (execTeval idleState) = true := by decide

/-- L2.4: byte `01` from 0, reflected and not. -/
theorem test_hweval_byte :
    hwByte 0x1EDC6F41#32 true 0#32 0x01#8 = 0xF26B8303#32 ∧
    hwByte 0x1EDC6F41#32 false 0#32 0x01#8 = 0x00000001#32 := by decide +kernel

/-- Row S11 of L2.5: the failing read. -/
theorem test_hweval_bus_error :
    gives (fun t => t.status.word = 0x00000036#32 && t.faddr = 0x1001#32 && t.result = 0#32)
      (execHweval (busErrorEverywhere (runningState .hweval 1#32))) = true := by decide

end Instructions

section Machine

/-- Row `0x00000000` of L2.0. -/
theorem test_illegal_word_status :
    gives (fun t => t.status.word = 0x00000016#32) (presentCommand 0x00000000#32 idleState) = true := by
  decide

/-- Program P4: the lost `DIVB`. -/
theorem test_lost_command_status :
    gives (fun t => t.status.word = 0x00000009#32)
      (presentCommand 0x00000002#32 (runningState .divs 0#32)) = true := by decide

/-- Row S3 of L2.5: `ERR` and `ECODE` cleared, `DONE` kept. -/
theorem test_status_clear :
    (Status.clearedBy 0x4#32
      { Status.zero with done := true, err := true, ecode := 1#4 }).word = 0x00000002#32 := by decide

/-- Row S14 of L2.5. -/
theorem test_table_readback :
    readReg (writeReg 0x1FF#32 tabledState .tidx) .tidx = 0x000000FF#32 ∧
    readReg (writeReg 0x1FF#32 tabledState .tidx) .tdata = 0x000000FF#32 :=
  ⟨by decide, identityTable_get 0xFF#8⟩

/-- The first read of program P3, over its bus transaction. -/
theorem test_read_id :
    gives (fun t => t.hostReads = [(0x40000000#32, 0x43520100#32)])
      (step { State.reset with events := [.hostRead ⟨0x40000000#32, 32, 0xF#4⟩] }) = true := by
  decide

/-- An access of 16 bits has no step (R23). -/
theorem test_narrow_access_refused :
    hostRead ⟨0x40000000#32, 16, 0x3#4⟩ State.reset = .refused .unsupportedAccess := by rfl

theorem test_first_step_after_reset :
    gives (fun t => t.status.busy && t.w.op = 1#4) (step (State.reset.withFetchWord 32 0x01)) = true ∧
    gives (fun t => t.status.busy && t.w.op = 2#4) (step (State.reset.withFetchWord 32 0x02)) = true ∧
    gives (fun t => t.status.busy && t.w.op = 3#4) (step (State.reset.withFetchWord 32 0x03)) = true ∧
    gives (fun t => t.status.word = 0x26#32) (step (State.reset.withFetchWord 32 0x04)) = true ∧
    gives (fun t => t.status.busy && t.w.op = 5#4) (step (State.reset.withFetchWord 32 0x05)) = true := by
  decide

/-- Writing what an unlisted address reads as removes the entry. -/
theorem test_memory_canonical :
    Memory.write [(1, 0x11#8), (3, 0x33#8)] 1 0x00#8 = [(3, 0x33#8)] ∧
    Memory.write [(1, 0x11#8)] 0 0x22#8 = [(0, 0x22#8), (1, 0x11#8)] := by decide

end Machine

section Witnesses

/-! Concrete states and operands that meet the hypotheses of each statement that has any, clause by clause and at the
ends of each range. -/

/-- The bus answers an error at `0x1001` only. -/
def busErrorAtSecond (s : State) : State :=
  { s with params := { s.params with busErr := [(0x1001#32, 0x1001#32)] } }

/-- A `TBUILD` whose 256 entries are written and whose completion is due. -/
def builtState : State := { runningState (.tbuild false) 256#32 with tbl := identityTable }

/-- The state with one event scheduled. -/
def next (e : Event) (s : State) : State := { s with events := [e] }

theorem witness_running_invariant : Invariant (runningState .divs 0#32) where
  memory := by decide
  ecodeZero := fun _ => rfl
  ecodeRaised := fun h => Bool.noConfusion h
  busyClean := fun _ => ⟨rfl, rfl⟩
  running := fun _ => ⟨.divs, rfl⟩
  index := fun _ => by decide
  building := fun _ h => absurd h (by decide)
  evaluating := fun _ h => absurd h (by decide)
  built := fun _ h => absurd h (by decide)
  table := fun h => Bool.noConfusion h

theorem witness_built_invariant (es : List Event) : Invariant { builtState with events := es } where
  memory := (by decide : Memory.wf idleState.mem)
  ecodeZero := fun _ => rfl
  ecodeRaised := fun h => Bool.noConfusion h
  busyClean := fun _ => ⟨rfl, rfl⟩
  running := fun _ => ⟨.tbuild false, rfl⟩
  index := fun _ => (by decide : 256#32 ≤ 256#32)
  building := fun _ _ => rfl
  evaluating := fun _ h => absurd h (by decide : ¬ (3#4 = 4#4))
  built := fun _ _ i _ => identityTable_get i
  table := fun h => Bool.noConfusion h

theorem witness_tabled_invariant (es : List Event) : Invariant { tabledState with events := es } where
  memory := (by decide : Memory.wf idleState.mem)
  ecodeZero := fun _ => rfl
  ecodeRaised := fun h => Bool.noConfusion h
  busyClean := fun h => Bool.noConfusion h
  running := fun h => Bool.noConfusion h
  index := fun h => Bool.noConfusion h
  building := fun h => Bool.noConfusion h
  evaluating := fun h => Bool.noConfusion h
  built := fun h => Bool.noConfusion h
  table := fun _ i => identityTable_get i

theorem witness_message_ready :
    idleState.status.busy = false ∧ idleState.messageReadable ∧ idleState.settled ∧
    tabledState.status.busy = false ∧ tabledState.status.tvalid = true ∧
    tabledState.messageReadable ∧ tabledState.settled := by
  refine ⟨rfl, ?_, ⟨rfl, ?_⟩, rfl, rfl, ?_, ⟨rfl, ?_⟩⟩ <;>
    simp [State.messageReadable, idleState, tabledState, State.reset, Config.reference, busErrAt]

theorem witness_ExactlySixWordsAreLegal :
    idleState.status.busy = false ∧ ∀ i, decode 0x00000006#32 ≠ .ok i :=
  ⟨rfl, by simp [show decode 0x00000006#32 = .error .opcode by decide]⟩

theorem witness_DecodeAndEncodeAgree :
    Instr.wellFormed (.tbuild true) = true ∧ decodeBytes (lanesOfWord 0x13#32) = .ok (.tbuild true) := by
  decide

theorem witness_StepRunsTheDecodedCommand :
    (∃ (s : State) (a : Access) (c : Word) (rest : List Event) (i : Instr),
      s.events = .hostWrite a c :: rest ∧ resolve s.params.crcBase a = .ok .cmd ∧
      s.status.busy = false ∧ decode c = .ok i) ∧
    (∃ (s : State) (rest : List Event) (i : Instr), s.events = .engine :: rest ∧ s.status.busy = true ∧
      commandOf s.w.op s.w.s = .ok i) ∧
    ∃ (s : State) (i : Instr), s.events = [] ∧ s.status.busy = true ∧ commandOf s.w.op s.w.s = .ok i :=
  ⟨⟨next (cmdWrite 0x13#32) idleState, _, _, _, .tbuild true, rfl, by decide, rfl, by decide⟩,
    ⟨next .engine (runningState .teval 0#32), _, .teval, rfl, rfl, rfl⟩,
    ⟨runningState .hweval 0#32, .hweval, rfl, rfl, rfl⟩⟩

theorem witness_AcceptanceSnapshotsTheOperands (i : Instr) :
    tabledState.status.busy = false ∧ (i = .teval → tabledState.status.tvalid = true) :=
  ⟨rfl, fun _ => rfl⟩

theorem witness_CommandWhileBusyIsLost :
    (runningState .divs 0#32).status.busy = true ∧
    (∃ s t : State, agentStep (.hostWrite (Reg.status.access s.params.crcBase) 0x8#32) s = .next t ∧
      s.status.cmdLost = true ∧ t.status.cmdLost = false) ∧
    ∃ s t : State, agentStep .rst s = .next t ∧ s.status.cmdLost = true ∧ t.status.cmdLost = false :=
  ⟨rfl, ⟨loseCommand idleState, _, rfl, rfl, rfl⟩, ⟨loseCommand idleState, _, rfl, rfl, rfl⟩⟩

theorem witness_TevalNeedsAValidTable :
    idleState.status.busy = false ∧ idleState.status.tvalid = false := by decide

theorem witness_MessageByteUpdatesTheAccumulator :
    (runningState .divs 1#32).status.busy = true ∧
    (runningState .divs 1#32).w.k < (runningState .divs 1#32).w.len ∧
    busErrAt (runningState .divs 1#32).params 0x1001#32 = false ∧
    (runningState .divs 1#32).raceValues 0x1001#32 = [] := by decide

theorem witness_TableStepWritesOneEntry :
    (runningState (.tbuild true) 255#32).status.busy = true ∧
    (runningState (.tbuild true) 0#32).w.k < 256#32 ∧
    (runningState (.tbuild true) 255#32).w.k < 256#32 := by decide

theorem witness_CompletionWritesTheResult :
    (runningState .divs 2#32).status.busy = true ∧
    ¬ (runningState .divs 2#32).w.k < (runningState .divs 2#32).w.len ∧
    ¬ (runningState (.tbuild false) 256#32).w.k < 256#32 := by decide

theorem witness_FailingReadEndsTheCommand :
    ∃ s : State, readsMessage .teval = true ∧ s.status.busy = true ∧ s.w.k < s.w.len ∧
      busErrAt s.params (s.w.addr + s.w.k) = true :=
  ⟨busErrorAtSecond (runningState .teval 1#32), by decide⟩

theorem witness_CommandsChangeOnlyTheirResults :
    (∃ s t : State, exec .divs s = .next t ∧ t.result ≠ s.result) ∧
    (∃ s t : State, exec .hweval s = .next t ∧ t.faddr ≠ s.faddr) ∧
    (∃ s t : State, exec (.tbuild true) s = .next t ∧ t.tbl ≠ s.tbl) ∧
    (∃ s t : State, exec (.tbuild false) s = .next t ∧ t.status.tvalid ≠ s.status.tvalid) ∧
    ∃ s t : State, exec .divb s = .next t ∧ s.status.busy = true :=
  ⟨⟨runningState .divs 2#32, _, rfl, by decide⟩,
    ⟨busErrorAtSecond (runningState .hweval 1#32), _, rfl, by decide⟩,
    ⟨runningState (.tbuild true) 1#32, _, rfl,
      fun h => absurd (congrArg (tblGet · 1#8) h) (by decide +kernel)⟩,
    ⟨runningState (.tbuild false) 256#32, _, rfl, by decide⟩,
    ⟨runningState .divb 0#32, _, rfl, rfl⟩⟩

theorem witness_bit_index_range : 0 < 32 ∧ 31 < 32 := by decide

theorem witness_message_length_range :
    [0xA0#8, 0xA1#8, 0xA2#8, 0xA3#8].length = 4 ∧ [0xA0#8, 0xA1#8, 0xA2#8].length < 4 := by decide

theorem witness_FirstBusErrorEndsTheRun :
    ∃ s : State, readsMessage .teval = true ∧ s.status.busy = false ∧ s.status.tvalid = true ∧
      1 < s.len.toNat ∧ (∀ k < 1, busErrAt s.params (s.addr + BitVec.ofNat 32 k) = false) ∧
      busErrAt s.params (s.addr + BitVec.ofNat 32 1) = true :=
  ⟨busErrorAtSecond tabledState, by decide⟩

theorem witness_FirstBusErrorEndsTheRun_at_once :
    ∃ s : State, s.status.busy = false ∧ 0 < s.len.toNat ∧
      (∀ k < 0, busErrAt s.params (s.addr + BitVec.ofNat 32 k) = false) ∧
      busErrAt s.params (s.addr + BitVec.ofNat 32 0) = true :=
  ⟨busErrorEverywhere idleState, by decide⟩

theorem witness_EmptyMessage :
    ({ idleState with len := 0#32 } : State).status.busy = false ∧
    ({ idleState with len := 0#32 } : State).len = 0#32 := by decide

/-- While `DIVS` runs, an operand register is written, a second command is issued, and `STATUS` is read. -/
def mixedSchedule : List Event :=
  [.hostWrite (Reg.poly.access 0x40000000#32) 7#32, .engine, cmdWrite 0x2#32, .engine,
    .hostRead (Reg.status.access 0x40000000#32)]

theorem witness_InterleavingKeepsTheResult :
    ∃ (s : State) (a : Access) (evs rest : List Event), s.status.busy = false ∧ s.messageReadable ∧
      s.unsynced = [] ∧ resolve s.params.crcBase a = .ok .cmd ∧
      s.events = .hostWrite a (encode .divs) :: (evs ++ .engine :: rest) ∧
      (∀ e ∈ evs, e.harmless s.params.crcBase = true) ∧ evs.count .engine = engineSteps .divs s :=
  ⟨{ idleState with events := cmdWrite (encode .divs) :: (mixedSchedule ++ .engine :: []) }, _,
    mixedSchedule, [], rfl, witness_message_ready.2.1, rfl, by decide, rfl,
    List.all_eq_true.1 (by decide : mixedSchedule.all (Event.harmless 0x40000000#32) = true),
    by decide⟩

theorem witness_InterleavingKeepsTheResult_tbuild :
    ∃ (s : State) (a : Access) (evs rest : List Event), s.status.busy = false ∧ s.unsynced = [] ∧
      resolve s.params.crcBase a = .ok .cmd ∧
      s.events = .hostWrite a (encode (.tbuild true)) :: (evs ++ .engine :: rest) ∧
      (∀ e ∈ evs, e.harmless s.params.crcBase = true) ∧
      evs.count .engine = engineSteps (.tbuild true) s := by
  refine ⟨{ idleState with events := cmdWrite (encode (.tbuild true)) ::
      (List.replicate 256 .engine ++ .engine :: []) }, _, List.replicate 256 .engine, [],
    rfl, rfl, ?_, rfl, ?_, ?_⟩
  · decide
  · intro e he; rw [List.eq_of_mem_replicate he]; rfl
  · exact List.count_replicate_self

theorem witness_UnreflectedHwevalIsTheDivider :
    ∃ s t : State, s.status.busy = false ∧ s.params.hwReflect = false ∧ s.poly = s.params.hwPoly ∧
      runCommand .hweval 2 s = .next t :=
  ⟨{ idleState with
      len := 0#32, poly := 0x1EDC6F41#32, params := { Config.reference with hwReflect := false } },
    _, rfl, rfl, rfl, rfl⟩

theorem witness_DividerResultHasNoHiddenState :
    ∃ s s' : State, s.status.busy = false ∧ s'.status.busy = false ∧ s.messageReadable ∧
      s'.messageReadable ∧ s.settled ∧ s'.settled ∧ s.poly = s'.poly ∧ s.init = s'.init ∧
      s.fxor = s'.fxor ∧ s.len = s'.len ∧ s.message = s'.message ∧ s.addr ≠ s'.addr ∧
      s.result ≠ s'.result ∧ s.ie ≠ s'.ie := by
  obtain ⟨-, hr, hs, -⟩ := witness_message_ready
  refine ⟨idleState, { idleState with
      addr := 0xFFFFFFFF#32, result := 5#32, ie := true, mem := [(0xFFFFFFFF, 0x01#8)] },
    rfl, rfl, hr, ?_, hs, hs, rfl, rfl, rfl, rfl, ?_, by decide, by decide, by decide⟩
  · simp [State.messageReadable, idleState, State.reset, Config.reference, busErrAt]
  · rfl

theorem witness_TevalIgnoresSeedMaskAndPolynomial :
    ∃ t : State, tabledState.status.busy = false ∧ runCommand .teval 2 tabledState = .next t :=
  ⟨_, rfl, rfl⟩

theorem witness_RunningCommandEnds :
    Invariant (runningState .divs 0#32) ∧ (runningState .divs 0#32).status.busy = true ∧
    (runningState .divs 0#32).events = [] :=
  ⟨witness_running_invariant, rfl, rfl⟩

theorem witness_StepKeepsTheInvariant :
    ∃ s t : State, Invariant s ∧ step s = .next t ∧ s.status.busy = true :=
  ⟨_, _, witness_running_invariant, rfl, rfl⟩

theorem witness_NoReachableStepFaults :
    Invariant (runningState .divs 0#32) ∧
    step (next (.hostRead ⟨0x40000001#32, 32, 0xF#4⟩) idleState) = .refused .unsupportedAccess ∧
    step (next (.hostWrite ⟨0x40000040#32, 32, 0xF#4⟩ 0#32) idleState) = .refused .outsideWindow :=
  ⟨witness_running_invariant, rfl, rfl⟩

theorem witness_CoreNeverWritesTheMessageSpace :
    (∃ t : State, agentStep .engine (runningState .divs 0#32) = .next t) ∧
    Event.writesMemory .engine = false ∧ Memory.wf idleState.mem ∧
    ∃ t : State, agentStep (.busWrite 0x1000#32 0x00#8) idleState = .next t :=
  ⟨⟨_, rfl⟩, rfl, by decide, ⟨_, rfl⟩⟩

theorem witness_ResultChangesOnlyAtCompletion :
    readsMessage .divs = true ∧ ¬ (runningState .divs 2#32).w.k < (runningState .divs 2#32).w.len ∧
    (∃ t : State, step (runningState .divs 2#32) = .next t ∧ t.result ≠ (runningState .divs 2#32).result) ∧
    ∃ t : State, step (next .rst { idleState with result := 5#32 }) = .next t ∧ t.result ≠ 5#32 :=
  ⟨rfl, by decide, ⟨_, rfl, by decide⟩, ⟨_, rfl, by decide⟩⟩

theorem witness_FaddrChangesOnlyAtABusError :
    (∃ s : State, readsMessage .divb = true ∧ s.status.busy = true ∧ s.w.k < s.w.len ∧
      busErrAt s.params (s.w.addr + s.w.k) = true) ∧
    (∃ t : State, step (busErrorAtSecond (runningState .divb 1#32)) = .next t ∧ t.faddr ≠ 0#32) ∧
    ∃ t : State, step (next .rst { idleState with faddr := 5#32 }) = .next t ∧ t.faddr ≠ 5#32 :=
  ⟨⟨busErrorAtSecond (runningState .divb 1#32), by decide⟩, ⟨_, rfl, by decide⟩, ⟨_, rfl, by decide⟩⟩

/-- Clauses 1 and 5: the completion of `TBUILD` sets `TVALID`. -/
theorem witness_TableValidityLifecycle_set :
    ∃ s t : State, Invariant s ∧ step s = .next t ∧ s.status.tvalid = false ∧ t.status.tvalid = true ∧
      nextEvent s = .engine ∧ s.status.busy = true ∧ ¬ s.w.k < 256#32 ∧
      commandOf s.w.op s.w.s = .ok (.tbuild false) :=
  ⟨_, _, witness_built_invariant [], rfl, rfl, rfl, rfl, rfl, by decide, rfl⟩

/-- Clauses 2 and 4: the acceptance of `TBUILD` clears it. -/
theorem witness_TableValidityLifecycle_rebuild :
    ∃ (s t : State) (a : Access) (c : Word), Invariant s ∧ step s = .next t ∧
      s.status.tvalid = true ∧ t.status.tvalid = false ∧
      nextEvent s = .hostWrite a c ∧ resolve s.params.crcBase a = .ok .cmd ∧
      s.status.busy = false ∧ decode c = .ok (.tbuild true) :=
  ⟨_, _, _, _, witness_tabled_invariant [cmdWrite 0x13#32], rfl, rfl, rfl, rfl, by decide, rfl,
    by decide⟩

/-- Clauses 2 and 3: reset clears it. -/
theorem witness_TableValidityLifecycle_reset :
    ∃ s t : State, Invariant s ∧ step s = .next t ∧ s.status.tvalid = true ∧ t.status.tvalid = false ∧
      nextEvent s = .rst :=
  ⟨_, _, witness_tabled_invariant [.rst], rfl, rfl, rfl, rfl⟩

/-- Clause 6: a step that keeps it. -/
theorem witness_TableValidityLifecycle_kept :
    ∃ s t : State, Invariant s ∧ step s = .next t ∧ s.status.tvalid = true ∧ t.status.tvalid = true :=
  ⟨_, _, witness_tabled_invariant [cmdWrite 0x4#32], rfl, rfl, rfl⟩

theorem witness_OnlyResetCancelsACommand :
    (∃ s t : State, step s = .next t ∧ s.status.busy = true ∧ t.status.busy = false ∧
      nextEvent s = .rst) ∧
    ∃ s t : State, step s = .next t ∧ s.status.busy = true ∧ t.status.busy = false ∧
      nextEvent s = .engine :=
  ⟨⟨next .rst (runningState .divs 0#32), _, rfl, rfl, rfl, rfl⟩,
    ⟨runningState .divs 2#32, _, rfl, rfl, rfl, rfl⟩⟩

theorem witness_EachByteIsReadOnce :
    (∃ t : State, step (runningState .divs 0#32) = .next t ∧ t.msgReads ≠ [] ∧ t.status.busy = true) ∧
    ∃ t : State, step (busErrorEverywhere (runningState .divs 0#32)) = .next t ∧ t.msgReads ≠ [] ∧
      t.status.busy = false :=
  ⟨⟨_, rfl, by decide, rfl⟩, ⟨_, rfl, by decide, rfl⟩⟩

theorem witness_IdentificationNeverChanges :
    ∃ t : State, step (next (.hostWrite (Reg.id.access 0x40000000#32) 0#32) idleState) = .next t :=
  ⟨_, rfl⟩

theorem witness_MemoriesThatReadAlikeAreEqual :
    ∃ m m' : Memory, Memory.wf m ∧ Memory.wf m' ∧ ∀ a, m.read a = m'.read a :=
  ⟨idleState.mem, Memory.write [(0x1000, 0x01#8), (0x1001, 0x02#8)] 0x1001 0x00#8,
    by decide, by decide, fun _ => rfl⟩

theorem witness_HostReadsReturnTheRegisters :
    tabledState.status.tvalid = true ∧ idleState.status.tvalid = false := by decide

theorem witness_ReservedAndReadOnlyBitsIgnoreWrites :
    (0x3#32).getLsbD 0 = (0x1#32).getLsbD 0 ∧
    (0xFFFFFFF3#32).extractLsb' 1 3 = (0x2#32).extractLsb' 1 3 ∧
    (0x1FF#32).extractLsb' 0 8 = (0xFF#32).extractLsb' 0 8 ∧
    ∃ t : State, hostRead (Reg.status.access 0x40000000#32) idleState = .next t :=
  ⟨by decide, by decide, by decide, ⟨_, rfl⟩⟩

theorem witness_ErrorsAreClearedByTheHost :
    (0x6#32).getLsbD 2 = true ∧ (0x4#32).getLsbD 2 = true ∧ idleState.status.busy = false ∧
    ∃ t : State, presentCommand 0x1#32 idleState = .next t ∧ t.status.busy = true :=
  ⟨by decide, by decide, rfl, ⟨_, rfl, rfl⟩⟩

/-- Both clauses of R23 at the window's ends, and each way to be unsupported. -/
theorem witness_OnlyAlignedWordAccessesHaveAStep :
    let base := idleState.params.crcBase
    let inWindow := fun a : Access => (a.addr - base).toNat < 64
    let word := fun a : Access => a.bits = 32 ∧ a.addr.toNat % 4 = 0 ∧ a.enables = 0xF#4
    base.toNat % 64 = 0 ∧
    (inWindow ⟨0x40000000#32, 32, 0xF#4⟩ ∧ word ⟨0x40000000#32, 32, 0xF#4⟩) ∧
    (inWindow ⟨0x4000003C#32, 32, 0xF#4⟩ ∧ word ⟨0x4000003C#32, 32, 0xF#4⟩) ∧
    (inWindow ⟨0x4000003F#32, 32, 0xF#4⟩ ∧ ¬ word ⟨0x4000003F#32, 32, 0xF#4⟩) ∧
    (inWindow ⟨0x40000000#32, 8, 0xF#4⟩ ∧ ¬ word ⟨0x40000000#32, 8, 0xF#4⟩) ∧
    (inWindow ⟨0x40000000#32, 32, 0x7#4⟩ ∧ ¬ word ⟨0x40000000#32, 32, 0x7#4⟩) := by decide

theorem witness_InterruptFollowsDone :
    (0x2#32).getLsbD 1 = true ∧ (0x0#32).getLsbD 0 = false ∧ (0x1#32).getLsbD 0 = true ∧
    (Status.finished Status.zero).done = true ∧
    (∃ t : State, presentCommand 0x2#32 idleState = .next t ∧ t.status.busy = true) ∧
    (∃ s t : State, s.status.busy = false ∧ presentCommand 0x4#32 s = .next t ∧ s.ie = true ∧
      t.status.busy = false) ∧
    (∃ t, presentCommand 0x2#32 (runningState .divs 0#32) = .next t) ∧
    ∃ s t : State, exec .divs s = .next t ∧ s.status.busy = true ∧ s.ie = true ∧
      t.status.busy = false :=
  ⟨by decide, by decide, by decide, rfl, ⟨_, rfl, rfl⟩,
    ⟨{ idleState with ie := true }, _, rfl, rfl, rfl, rfl⟩, ⟨_, rfl⟩,
    ⟨{ runningState .divs 2#32 with ie := true }, _, rfl, rfl, rfl, rfl⟩⟩

theorem witness_ResetSetsEveryRegister :
    ∃ t : State, agentStep .rst (runningState .divs 1#32) = .next t :=
  ⟨_, rfl⟩

theorem witness_PartTableIsNeverSeen :
    ∃ s : State, Invariant s ∧ s.status.busy = true ∧ s.w.op = 3#4 :=
  ⟨_, witness_built_invariant [], rfl, rfl⟩

theorem witness_OperandWriteCommutesWithTheEngine :
    Reg.len ∈ [Reg.poly, .init, .fxor, .addr, .len] ∧
    Reg.tidx ∈ [Reg.poly, .init, .fxor, .addr, .len, .ctrl, .tidx] ∧
    ∃ t, (runningState .divs 0#32).status.busy = true ∧ engineStep (runningState .divs 0#32) = .next t :=
  ⟨by decide, by decide, ⟨_, rfl, rfl⟩⟩

theorem witness_CompletionWinsOverSameClockWrites :
    completionDue .divs (runningState .divs 2#32) ∧
    completionDue (.tbuild false) (runningState (.tbuild false) 256#32) := by
  unfold completionDue; decide

theorem witness_CompletionWinsOverSameClockWrites_error :
    ∃ s : State, readsMessage .hweval = true ∧ s.status.busy = true ∧ s.w.k < s.w.len ∧
      busErrAt s.params (s.w.addr + s.w.k) = true :=
  ⟨busErrorAtSecond (runningState .hweval 1#32), by decide⟩

theorem witness_RacingByteReadsOldOrNew :
    ∃ s t : State, Memory.wf s.mem ∧ s.status.busy = true ∧ s.w.k < s.w.len ∧
      busErrAt s.params (s.w.addr + s.w.k) = false ∧ s.raceValues (s.w.addr + s.w.k) = [] ∧
      exec .divs (busWrite (s.w.addr + s.w.k) 0x55#8 s) = .next t :=
  ⟨runningState .divs 0#32, _, by decide, rfl, by decide, by decide, by decide, rfl⟩

theorem witness_WritesMustBeVisibleBeforeTheCommand :
    ∃ t u : State, Memory.wf idleState.mem ∧ idleState.status.busy = false ∧ idleState.settled ∧
      busErrAt idleState.params 0x1000#32 = false ∧
      exec .divs (busWrite 0x1000#32 0x55#8 idleState) = .next t ∧ t.status.busy = true ∧
      exec .divs (makeVisible (busWrite 0x1000#32 0x55#8 idleState)) = .next u ∧
      u.status.busy = true :=
  ⟨_, _, by decide, rfl, witness_message_ready.2.2.1, by decide, rfl, rfl, rfl, rfl⟩

theorem witness_WorkingRegistersStayBetweenCommands :
    (∃ t : State, exec .divs (runningState .divs 2#32) = .next t ∧ t.status.busy = false) ∧
    (∃ t : State, exec .hweval (busErrorEverywhere (runningState .hweval 0#32)) = .next t ∧
      t.status.busy = false) ∧
    (∃ t : State, exec .teval idleState = .next t ∧ t.status.busy = false) ∧
    ∃ t : State, Event.engine ≠ .rst ∧ agentStep .engine idleState = .next t ∧
      idleState.status.busy = false ∧ t.status.busy = false :=
  ⟨⟨_, rfl, rfl⟩, ⟨_, rfl, rfl⟩, ⟨_, rfl, rfl⟩, ⟨_, by decide, rfl, rfl, rfl⟩⟩

end Witnesses

end Sys2Proof.Machine.Tests
end

section
/-! SUPPORT. Every entry of a built table is the index byte itself (41_table.md R121, R123). -/

namespace Sys2Proof.Machine

/-- A divider's bit step while bit 31 of the register is 0: the message bit shifts in, no polynomial is applied. -/
def shiftIn (r : Word) (m : Bool) : Word := (r <<< 1) ||| zextBit m

theorem getLsbD_zextBit (m : Bool) (i : Nat) : (zextBit m).getLsbD i = (decide (i = 0) && m) := by
  cases m <;> cases i <;> simp [zextBit, BitVec.getLsbD_one]

theorem getLsbD_shiftIn (r : Word) (m : Bool) {i : Nat} (hi : i < 32) :
    (shiftIn r m).getLsbD i = if i = 0 then m else r.getLsbD (i - 1) := by
  rw [shiftIn, BitVec.getLsbD_or, BitVec.getLsbD_shiftLeft, getLsbD_zextBit]
  cases i <;> simp [hi]

theorem divStepS_of_top_clear (p : Word) {r : Word} (h : r.getLsbD 31 = false) (m : Bool) :
    divStepS p r m = shiftIn r m := by
  simp only [divStepS, h, shiftIn, Bool.false_eq_true, if_false]

theorem divStepB_of_top_clear (p : Word) {r : Word} (h : r.getLsbD 31 = false) (m : Bool) :
    divStepB p r m = shiftIn r m := by
  have hpoly : mask32 false &&& p = 0#32 := by simp [mask32, zextBit]
  have hbit : mask32 m &&& 1#32 = zextBit m := by cases m <;> rfl
  refine BitVec.eq_of_getLsbD_eq fun i hi => ?_
  rw [getLsbD_shiftIn r m hi, divStepB, h, hpoly, hbit, BitVec.xor_zero, BitVec.getLsbD_xor,
    BitVec.getLsbD_shiftLeft, getLsbD_zextBit]
  cases i <;> simp [hi]

/-- While the bits shifted in do not reach bit 31, any divider only shifts. `n` bits of the register are used. -/
theorem msbFirst_eq_shiftIn {bitStep : Word → Bool → Word}
    (hstep : ∀ r : Word, r.getLsbD 31 = false → ∀ m, bitStep r m = shiftIn r m)
    {k n : Nat} {r : Word} (b : Byte) (hr : ∀ i, n ≤ i → r.getLsbD i = false) (hk : n + k ≤ 32) :
    msbFirst bitStep k r b = msbFirst shiftIn k r b := by
  induction k generalizing n r b with
  | zero => rfl
  | succ k ih =>
    have hnext : ∀ i, n + 1 ≤ i → (shiftIn r (b.getLsbD 7)).getLsbD i = false := fun i hi => by
      by_cases hlt : i < 32
      · rw [getLsbD_shiftIn _ _ hlt, if_neg (by omega), hr _ (by omega)]
      · exact BitVec.getLsbD_of_ge _ _ (by omega)
    rw [msbFirst, msbFirst, hstep r (hr 31 (by omega))]
    exact ih _ hnext (by omega)

theorem msbFirst_shiftIn_byte : ∀ b : Byte, msbFirst shiftIn 8 0#32 b = zext32 b := by
  decide +kernel

/-- From 0, the eight bits of a byte never reach bit 31. -/
theorem msbFirst_byte_from_zero {bitStep : Word → Bool → Word}
    (hstep : ∀ r : Word, r.getLsbD 31 = false → ∀ m, bitStep r m = shiftIn r m) (b : Byte) :
    msbFirst bitStep 8 0#32 b = zext32 b :=
  (msbFirst_eq_shiftIn (n := 0) hstep b (fun _ _ => BitVec.getLsbD_zero) (by decide)).trans
    (msbFirst_shiftIn_byte b)

/-- The identity of R123, for both strategies and every polynomial. -/
theorem tableEntry_eq_byte (strategy : Bool) (p : Word) (i : Byte) : tableEntry strategy p i = zext32 i := by
  have hS : divByteS p 0#32 i = zext32 i := msbFirst_byte_from_zero (fun _ h => divStepS_of_top_clear p h) i
  have hB : divByteB p 0#32 i = zext32 i := msbFirst_byte_from_zero (fun _ h => divStepB_of_top_clear p h) i
  cases strategy <;> simp [tableEntry, hS, hB]

end Sys2Proof.Machine
end

section
/-! SUPPORT. What one step of an agent can do, as one relation with a named case per outcome; every whole-machine
statement is a case split over it. -/

namespace Sys2Proof.Machine

theorem exists_tbuild_of_not_readsMessage {i : Instr} (h : readsMessage i = false) : ∃ b, i = .tbuild b := by
  cases i with
  | tbuild b => exact ⟨b, rfl⟩
  | divs | divb | teval | hweval => cases h

theorem opcodeOf_eq_three_iff (i : Instr) : opcodeOf i = 3#4 ↔ ∃ b, i = .tbuild b := by
  cases i <;> simp [opcodeOf]

theorem opcodeOf_eq_four_iff (i : Instr) : opcodeOf i = 4#4 ↔ i = .teval := by
  cases i <;> simp [opcodeOf]

theorem opcodeOf_ne_three {i : Instr} (h : readsMessage i = true) : opcodeOf i ≠ 3#4 := by
  intro h3
  obtain ⟨b, rfl⟩ := (opcodeOf_eq_three_iff i).1 h3
  cases h

/-- The next states of `s`, by what the agent of an event does there: the cases of R20, R161 to R169 and R201. -/
inductive Transition (s : State) : Event → State → Prop
  | hostRead {a : Access} {r : Reg} (hr : resolve s.params.crcBase a = .ok r) :
      Transition s (.hostRead a) { s with hostReads := (a.addr, readReg s r) :: s.hostReads }
  | lost {a : Access} {c : Word} (hr : resolve s.params.crcBase a = .ok .cmd) (hb : s.status.busy = true) :
      Transition s (.hostWrite a c) (loseCommand s)
  | illegal {a : Access} {c : Word} (hr : resolve s.params.crcBase a = .ok .cmd)
      (hb : s.status.busy = false) (hd : ∀ i, decode c ≠ .ok i) :
      Transition s (.hostWrite a c) (raise .illegalCmd (beginAcceptance s))
  | accepted {a : Access} {c : Word} {i : Instr} (hr : resolve s.params.crcBase a = .ok .cmd)
      (hb : s.status.busy = false) (hd : decode c = .ok i) (ht : i = .teval → s.status.tvalid = true) :
      Transition s (.hostWrite a c) (accept i (opcodeOf i == 3#4) (seedOf i s) s)
  | noTable {a : Access} {c : Word} (hr : resolve s.params.crcBase a = .ok .cmd)
      (hb : s.status.busy = false) (hd : decode c = .ok .teval) (ht : s.status.tvalid = false) :
      Transition s (.hostWrite a c) (raise .tableInvalid (beginAcceptance s))
  | regWrite {a : Access} {v : Word} {r : Reg} (hr : resolve s.params.crcBase a = .ok r) (hc : r ≠ .cmd) :
      Transition s (.hostWrite a v) (writeReg v s r)
  | idle (hb : s.status.busy = false) : Transition s .engine s
  | busError {i : Instr} (hb : s.status.busy = true) (hc : commandOf s.w.op s.w.s = .ok i)
      (hi : readsMessage i = true) (hk : s.w.k < s.w.len) (he : busErrAt s.params s.byteAddr = true) :
      Transition s .engine (raise (.busError s.byteAddr) (s.issueRead s.byteAddr))
  | byte {i : Instr} {b : Byte} (hb : s.status.busy = true) (hc : commandOf s.w.op s.w.s = .ok i)
      (hi : readsMessage i = true) (hk : s.w.k < s.w.len) (he : busErrAt s.params s.byteAddr = false)
      (hm : b ∈ s.mem.read s.byteAddr.toNat :: s.raceValues s.byteAddr) :
      Transition s .engine ((s.issueRead s.byteAddr).advance (byteUpdate i s s.w.acc b))
  | complete {i : Instr} (hb : s.status.busy = true) (hc : commandOf s.w.op s.w.s = .ok i)
      (hi : readsMessage i = true) (hk : ¬ s.w.k < s.w.len) :
      Transition s .engine (completeResult (finalValue i s) s)
  | entry {b : Bool} (hb : s.status.busy = true) (hc : commandOf s.w.op s.w.s = .ok (.tbuild b))
      (hk : s.w.k < 256#32) : Transition s .engine (tableStep s)
  | built {b : Bool} (hb : s.status.busy = true) (hc : commandOf s.w.op s.w.s = .ok (.tbuild b))
      (hk : ¬ s.w.k < 256#32) : Transition s .engine (completeTable s)
  | rst : Transition s .rst (rstStep s)
  | busWrite (a : Word) (b : Byte) : Transition s (.busWrite a b) (busWrite a b s)
  | makeVisible : Transition s .makeVisible (makeVisible s)

theorem Transition.of_accepting {s t : State} {a : Access} {c : Word} {i : Instr}
    (hr : resolve s.params.crcBase a = .ok .cmd) (hb : s.status.busy = false) (hd : decode c = .ok i)
    (h : exec i s = .next t) : Transition s (.hostWrite a c) t := by
  by_cases ht : i = .teval → s.status.tvalid = true
  · cases (exec_idle hb ht).symm.trans h
    exact .accepted hr hb hd ht
  · obtain ⟨rfl, htv⟩ : i = .teval ∧ s.status.tvalid = false := by simpa using ht
    cases (exec_idle_teval_invalid hb htv).symm.trans h
    exact .noTable hr hb hd htv

theorem Transition.of_running {s t : State} {i : Instr} (hb : s.status.busy = true)
    (hc : commandOf s.w.op s.w.s = .ok i) (h : exec i s = .next t) : Transition s .engine t := by
  cases hi : readsMessage i with
  | true =>
    cases (exec_busy hi hb).symm.trans h
    by_cases hk : s.w.k < s.w.len
    · rw [messageStep_byte _ _ hk]
      rcases byteStep_cases (byteUpdate i s) s with ⟨he, e⟩ | ⟨he, b, hm, e⟩ <;> rw [e]
      · exact .busError hb hc hi hk he
      · exact .byte hb hc hi hk he hm
    · rw [messageStep_complete _ _ hk]
      exact .complete hb hc hi hk
  | false =>
    obtain ⟨b, rfl⟩ := exists_tbuild_of_not_readsMessage hi
    cases (exec_busy_tbuild hb).symm.trans h
    by_cases hk : s.w.k < 256#32
    · rw [if_pos hk]
      exact .entry hb hc hk
    · rw [if_neg hk]
      exact .built hb hc hk

/-- Every step of an agent that goes on is one of the transitions. -/
theorem Transition.of_agentStep {e : Event} {s t : State} (h : agentStep e s = .next t) : Transition s e t := by
  rcases agentStep_cases h with ⟨a, r, rfl, hr, rfl⟩ | ⟨a, c, rfl, hr, hb, rfl⟩ |
    ⟨a, c, rfl, hr, hb, hd, rfl⟩ | ⟨a, c, i, rfl, hr, hb, hd, hx⟩ | ⟨a, v, r, rfl, hr, hc, rfl⟩ |
    ⟨rfl, hb, rfl⟩ | ⟨rfl, hb, i, hc, hx⟩ | ⟨rfl, rfl⟩ | ⟨a, b, rfl, rfl⟩ | ⟨rfl, rfl⟩
  · exact .hostRead hr
  · exact .lost hr hb
  · exact .illegal hr hb hd
  · exact .of_accepting hr hb hd hx
  · exact .regWrite hr hc
  · exact .idle hb
  · exact .of_running hb hc hx
  · exact .rst
  · exact .busWrite a b
  · exact .makeVisible

/-- A step of the machine is a transition of the state with the next event taken off the schedule. -/
theorem Transition.of_step {s t : State} (h : step s = .next t) : Transition (takeEvent s) (nextEvent s) t :=
  .of_agentStep h

end Sys2Proof.Machine
end

section
/-! SUPPORT. The invariant of `Safety.lean`: each transition keeps it, and the reset state has it. -/

namespace Sys2Proof.Machine

/-- What the invariant says of `STATUS` alone: the code of an error, and a running command's clean flags (R31, R166). -/
structure Status.Coherent (st : Status) : Prop where
  ecodeZero : st.err = false → st.ecode = 0#4
  ecodeRaised : st.err = true → st.ecode = 1#4 ∨ st.ecode = 2#4 ∨ st.ecode = 3#4
  busyClean : st.busy = true → st.done = false ∧ st.err = false

section StatusOperations

variable {st : Status}

theorem Invariant.coherent {s : State} (h : Invariant s) : s.status.Coherent :=
  ⟨h.ecodeZero, h.ecodeRaised, h.busyClean⟩

theorem Status.Coherent.clearedBy (h : st.Coherent) (v : Word) : (st.clearedBy v).Coherent where
  ecodeZero he := by
    rw [clearedBy_ecode]
    split
    next => rfl
    next hv =>
      rw [clearedBy_err, Bool.eq_false_of_not_eq_true hv, Bool.not_false, Bool.and_true] at he
      exact h.ecodeZero he
  ecodeRaised he := by
    rw [clearedBy_err, Bool.and_eq_true, Bool.not_eq_true'] at he
    obtain ⟨he, hv⟩ := he
    rw [clearedBy_ecode, hv, if_neg Bool.false_ne_true]
    exact h.ecodeRaised he
  busyClean hb := by simp [h.busyClean hb]

theorem Status.Coherent.lost (h : st.Coherent) : st.lost.Coherent :=
  ⟨h.ecodeZero, h.ecodeRaised, h.busyClean⟩

theorem Status.coherent_started (c : Bool) (st : Status) : (st.started c).Coherent where
  ecodeZero _ := rfl
  ecodeRaised he := nomatch he
  busyClean _ := ⟨rfl, rfl⟩

theorem Status.Coherent.finished (h : st.Coherent) : st.finished.Coherent where
  ecodeZero := h.ecodeZero
  ecodeRaised := h.ecodeRaised
  busyClean hb := nomatch hb

theorem Status.coherent_failed (e : CmdError) (st : Status) : (st.failed e.code).Coherent where
  ecodeZero he := nomatch he
  ecodeRaised _ := by cases e <;> simp [CmdError.code]
  busyClean hb := nomatch hb

theorem Status.coherent_zero : Status.zero.Coherent where
  ecodeZero _ := rfl
  ecodeRaised he := nomatch he
  busyClean hb := nomatch hb

end StatusOperations

/-- The clauses about a running command say nothing of an idle core. -/
theorem Invariant.of_idle {t : State} (hm : Memory.wf t.mem) (hst : t.status.Coherent)
    (hb : t.status.busy = false) (htbl : t.status.tvalid = true → ∀ i : Byte, tblGet t.tbl i = zext32 i) :
    Invariant t where
  memory := hm
  ecodeZero := hst.ecodeZero
  ecodeRaised := hst.ecodeRaised
  busyClean := hst.busyClean
  running h := by simp [hb] at h
  index h := by simp [hb] at h
  building h := by simp [hb] at h
  evaluating h := by simp [hb] at h
  built h := by simp [hb] at h
  table := htbl

/-- A step that leaves the running command, the table and its validity alone. -/
theorem Invariant.of_same_command {s t : State} (h : Invariant s) (hm : Memory.wf t.mem)
    (hst : t.status.Coherent) (hb : t.status.busy = s.status.busy)
    (htv : t.status.tvalid = s.status.tvalid) (hw : t.w = s.w) (htbl : t.tbl = s.tbl) : Invariant t where
  memory := hm
  ecodeZero := hst.ecodeZero
  ecodeRaised := hst.ecodeRaised
  busyClean := hst.busyClean
  running := by rw [hb, hw]; exact h.running
  index := by rw [hb, hw]; exact h.index
  building := by rw [hb, hw, htv]; exact h.building
  evaluating := by rw [hb, hw, htv]; exact h.evaluating
  built := by rw [hb, hw, htbl]; exact h.built
  table := by rw [htv, htbl]; exact h.table

theorem takeEvent_invariant {s : State} (h : Invariant s) : Invariant (takeEvent s) :=
  h.of_same_command h.memory h.coherent rfl rfl rfl rfl

theorem writeReg_coherent {s : State} (h : s.status.Coherent) (v : Word) (r : Reg) :
    (writeReg v s r).status.Coherent := by
  cases r with
  | status => exact h.clearedBy v
  | id | cap | hwpoly | ctrl | cmd | poly | init | fxor | addr | len | result | tidx | tdata | faddr
    | reserved => exact h

theorem writeReg_invariant {s : State} (h : Invariant s) (v : Word) (r : Reg) : Invariant (writeReg v s r) :=
  h.of_same_command (by simpa using h.memory) (writeReg_coherent h.coherent v r) (by simp) (by simp) (by simp)
    (by simp)

theorem accept_invariant {s : State} {i : Instr} (h : Invariant s) (acc : Word)
    (ht : i = .teval → s.status.tvalid = true) : Invariant (accept i (opcodeOf i == 3#4) acc s) where
  memory := h.memory
  ecodeZero := (Status.coherent_started _ _).ecodeZero
  ecodeRaised := (Status.coherent_started _ _).ecodeRaised
  busyClean := (Status.coherent_started _ _).busyClean
  running _ := ⟨i, commandOf_fields i⟩
  index _ := by split <;> exact Nat.zero_le _
  building _ h3 := by
    have hop : opcodeOf i = 3#4 := h3
    simp [hop]
  evaluating _ h4 := by
    obtain rfl := (opcodeOf_eq_four_iff i).1 h4
    simp [ht rfl, opcodeOf]
  built _ _ j hj := by simp at hj
  table hv := h.table (Bool.and_eq_true _ _ ▸ hv).1

/-- An error completion leaves the core idle, with the table as it was. -/
theorem raise_invariant {s : State} (e : CmdError) (hm : Memory.wf s.mem)
    (ht : s.status.tvalid = true → ∀ i : Byte, tblGet s.tbl i = zext32 i) : Invariant (raise e s) :=
  .of_idle hm (Status.coherent_failed e s.status) rfl ht

theorem completeResult_invariant {s : State} (h : Invariant s) (v : Word) : Invariant (completeResult v s) :=
  .of_idle h.memory h.coherent.finished rfl h.table

theorem advance_invariant {s : State} (h : Invariant s) (hk : s.w.k < s.w.len) (h3 : s.w.op ≠ 3#4)
    (acc : Word) : Invariant (s.advance acc) where
  memory := h.memory
  ecodeZero := h.ecodeZero
  ecodeRaised := h.ecodeRaised
  busyClean := h.busyClean
  running := h.running
  index _ := by
    simp only [advance_w, h3, if_false]
    bv_omega
  building _ hop := absurd hop h3
  evaluating := h.evaluating
  built _ hop := absurd hop h3
  table := h.table

theorem tableStep_invariant {s : State} (h : Invariant s) (hb : s.status.busy = true) (h3 : s.w.op = 3#4)
    (hk : s.w.k < 256#32) : Invariant (tableStep s) where
  memory := h.memory
  ecodeZero := h.ecodeZero
  ecodeRaised := h.ecodeRaised
  busyClean := h.busyClean
  running := h.running
  index _ := by
    simp only [tableStep_w, h3, if_true]
    bv_omega
  building := h.building
  evaluating := h.evaluating
  built _ _ i hi := by
    rw [tableStep_tbl, tblGet_tblSet]
    split
    next hnew => rw [tableEntry_eq_byte, hnew]
    next hold =>
      have hne : i.toNat ≠ s.w.k.toNat := fun e => hold (by bv_omega)
      have hsucc : (s.w.k + 1#32).toNat = s.w.k.toNat + 1 := by bv_omega
      have hi' : i.toNat < (s.w.k + 1#32).toNat := hi
      exact h.built hb h3 i (by omega)
  table hv := by simp [h.building hb h3] at hv

theorem completeTable_invariant {s : State} (h : Invariant s) (hb : s.status.busy = true)
    (h3 : s.w.op = 3#4) (hk : ¬ s.w.k < 256#32) : Invariant (completeTable s) :=
  .of_idle h.memory ⟨h.ecodeZero, h.ecodeRaised, fun hb => nomatch hb⟩ rfl fun _ i =>
    h.built hb h3 i (by have := i.isLt; bv_omega)

theorem rstStep_invariant {s : State} (h : Invariant s) : Invariant (rstStep s) :=
  .of_idle h.memory Status.coherent_zero rfl fun hv => nomatch hv

theorem busWrite_invariant {s : State} (h : Invariant s) (a : Word) (b : Byte) : Invariant (busWrite a b s) :=
  h.of_same_command (busWrite_wf h.memory a b) h.coherent rfl rfl rfl rfl

theorem Transition.keeps_invariant {s t : State} {e : Event} (h : Transition s e t) (hs : Invariant s) :
    Invariant t := by
  cases h with
  | hostRead _ => exact hs.of_same_command hs.memory hs.coherent rfl rfl rfl rfl
  | lost _ _ => exact hs.of_same_command hs.memory hs.coherent.lost rfl rfl rfl rfl
  | illegal _ _ _ => exact raise_invariant _ hs.memory hs.table
  | accepted _ _ _ ht => exact accept_invariant hs _ ht
  | noTable _ _ _ _ => exact raise_invariant _ hs.memory hs.table
  | regWrite _ _ => exact writeReg_invariant hs _ _
  | idle _ => exact hs
  | busError _ _ _ _ _ => exact raise_invariant _ hs.memory hs.table
  | byte _ hc hi hk _ _ =>
    have h3 : s.w.op ≠ 3#4 := (commandOf_cases hc).1 ▸ opcodeOf_ne_three hi
    exact advance_invariant (s := s.issueRead s.byteAddr)
      (hs.of_same_command hs.memory hs.coherent rfl rfl rfl rfl) hk h3 _
  | complete _ _ _ _ => exact completeResult_invariant hs _
  | entry hb hc hk => exact tableStep_invariant hs hb (commandOf_cases hc).1 hk
  | built hb hc hk => exact completeTable_invariant hs hb (commandOf_cases hc).1 hk
  | rst => exact rstStep_invariant hs
  | busWrite a b => exact busWrite_invariant hs a b
  | makeVisible => exact hs.of_same_command hs.memory hs.coherent rfl rfl rfl rfl

/-- Settles O35: a step is a transition, and each transition keeps the invariant. -/
theorem stepKeepsTheInvariant : Obligations.StepKeepsTheInvariant :=
  fun _ _ hs h => (Transition.of_step h).keeps_invariant (takeEvent_invariant hs)

/-- Settles O36: the reset state is idle, with no error and no valid table. -/
theorem resetHasTheInvariant : Obligations.ResetHasTheInvariant :=
  .of_idle Memory.reset_wf Status.coherent_zero rfl fun hv => nomatch hv

end Sys2Proof.Machine
end

section
/-! SUPPORT. Where a step can change `RESULT`, `FADDR`, `TVALID`, the table and the parameters (10_state.md R26 to
R28, R38, R41, R43). -/

namespace Sys2Proof.Machine

section Result

theorem finalValue_cases {i : Instr} (hi : readsMessage i = true) (s : State) :
    (i = .teval ∧ finalValue i s = s.w.acc) ∨
    ((i = .divs ∨ i = .divb ∨ i = .hweval) ∧ finalValue i s = s.w.acc ^^^ s.w.fxor) := by
  cases i with
  | tbuild b => cases hi
  | teval => exact .inl ⟨rfl, rfl⟩
  | divs | divb | hweval => exact .inr ⟨by simp, rfl⟩

/-- R38: only reset and a successful completion over the message write `RESULT`. -/
theorem Transition.result_cases {s t : State} {e : Event} (h : Transition s e t) :
    t.result = s.result ∨ (e = .rst ∧ t.result = 0#32) ∨
    (e = .engine ∧ s.status.busy = true ∧ t.status.done = true ∧ ¬ s.w.k < s.w.len ∧
      ∃ i, commandOf s.w.op s.w.s = .ok i ∧ readsMessage i = true ∧ t.result = finalValue i s) := by
  cases h with
  | rst => exact .inr (.inl ⟨rfl, rfl⟩)
  | complete hb hc hi hk => exact .inr (.inr ⟨rfl, hb, rfl, hk, _, hc, hi, rfl⟩)
  | regWrite _ _ => exact .inl (writeReg_result _ _ _)
  | hostRead | lost | illegal | accepted | noTable | idle | busError | byte | entry | built | busWrite
    | makeVisible => exact .inl rfl

/-- Settles O39: the completion step is `exec_busy`, and a change of `RESULT` is a case of the step's transition. -/
theorem resultChangesOnlyAtCompletion : Obligations.ResultChangesOnlyAtCompletion := by
  refine ⟨rfl, fun i s hi hb hk => ?_, fun s t h => ?_⟩
  · refine ⟨_, exec_busy hi hb, ?_⟩
    rw [messageStep_complete _ _ hk]
    exact ⟨rfl, rfl⟩
  · rcases (Transition.of_step h).result_cases with h | h | ⟨he, hb, hd, hk, i, hc, hi, hres⟩
    · exact .inl h
    · exact .inr (.inl h)
    · refine .inr (.inr ⟨he, hb, hd, hk, i, hc, ?_⟩)
      rw [hres]
      exact finalValue_cases hi (takeEvent s)

end Result

section FailingAddress

theorem byteStep_busError {s : State} (f : Word → Byte → Word) (he : busErrAt s.params s.byteAddr = true) :
    byteStep f s = raise (.busError s.byteAddr) (s.issueRead s.byteAddr) := by
  simp [byteStep, State.memRead, he]

/-- R41: only reset and a bus error's completion write `FADDR`. -/
theorem Transition.faddr_cases {s t : State} {e : Event} (h : Transition s e t) :
    t.faddr = s.faddr ∨ (e = .rst ∧ t.faddr = 0#32) ∨
    (e = .engine ∧ s.status.busy = true ∧ s.w.k < s.w.len ∧ busErrAt s.params s.byteAddr = true ∧
      t.faddr = s.byteAddr ∧ t.status.err = true ∧ t.status.ecode = 3#4) := by
  cases h with
  | rst => exact .inr (.inl ⟨rfl, rfl⟩)
  | busError hb _ _ hk he => exact .inr (.inr ⟨rfl, hb, hk, he, rfl, rfl, rfl⟩)
  | regWrite _ _ => exact .inl (writeReg_faddr _ _ _)
  | hostRead | lost | illegal | accepted | noTable | idle | byte | complete | entry | built | busWrite
    | makeVisible => exact .inl rfl

/-- Settles O40: a failing read is the error completion, and a change of `FADDR` is a case of the step's
transition. -/
theorem faddrChangesOnlyAtABusError : Obligations.FaddrChangesOnlyAtABusError := by
  refine ⟨rfl, fun i s hi hb hk he => ?_, fun s t h => (Transition.of_step h).faddr_cases⟩
  refine ⟨_, exec_busy hi hb, ?_⟩
  rw [messageStep_byte _ _ hk, byteStep_busError _ he]
  exact ⟨rfl, rfl⟩

end FailingAddress

section TableValidity

/-- R43: everything a step can do to `TVALID`. -/
theorem Transition.tvalid_cases {s t : State} {e : Event} (h : Transition s e t) :
    t.status.tvalid = s.status.tvalid ∨
    (t.status.tvalid = true ∧ e = .engine ∧ s.status.busy = true ∧ ¬ s.w.k < 256#32 ∧
      ∃ b, commandOf s.w.op s.w.s = .ok (.tbuild b)) ∨
    (t.status.tvalid = false ∧ (e = .rst ∨ (s.status.busy = false ∧ ∃ a c b, e = .hostWrite a c ∧
      resolve s.params.crcBase a = .ok .cmd ∧ decode c = .ok (.tbuild b)))) := by
  cases h with
  | rst => exact .inr (.inr ⟨rfl, .inl rfl⟩)
  | built hb hc hk => exact .inr (.inl ⟨rfl, rfl, hb, hk, _, hc⟩)
  | @accepted a c i hr hb hd _ =>
    by_cases hop : opcodeOf i = 3#4
    · obtain ⟨b, rfl⟩ := (opcodeOf_eq_three_iff i).1 hop
      exact .inr (.inr ⟨by simp [hop], .inr ⟨hb, a, c, b, rfl, hr, hd⟩⟩)
    · exact .inl (by simp [hop])
  | regWrite _ _ => exact .inl (writeReg_status_tvalid _ _ _)
  | hostRead | lost | illegal | noTable | idle | busError | byte | complete | entry | busWrite
    | makeVisible => exact .inl rfl

/-- R42, R122, R191: everything a step can do to the table RAM. -/
theorem Transition.tbl_cases {s t : State} {e : Event} (h : Transition s e t) :
    t.tbl = s.tbl ∨ (e = .rst ∧ t.status.tvalid = false) ∨
    (e = .engine ∧ s.status.busy = true ∧ s.w.op = 3#4) := by
  cases h with
  | rst => exact .inr (.inl ⟨rfl, rfl⟩)
  | entry hb hc _ => exact .inr (.inr ⟨rfl, hb, (commandOf_cases hc).1⟩)
  | regWrite _ _ => exact .inl (writeReg_tbl _ _ _)
  | hostRead | lost | illegal | accepted | noTable | idle | busError | byte | complete | built | busWrite
    | makeVisible => exact .inl rfl

theorem step_of_nextEvent {s : State} {e : Event} (he : nextEvent s = e) :
    step s = agentStep e (takeEvent s) := by
  rw [step, he]

/-- R161: a legal word written to `CMD` of an idle core is `exec` of its command. -/
theorem hostWrite_accepts {s : State} {a : Access} {c : Word} {i : Instr}
    (hr : resolve s.params.crcBase a = .ok .cmd) (hb : s.status.busy = false) (hd : decode c = .ok i) :
    hostWrite a c s = exec i s := by
  simp [hostWrite, hr, presentCommand, hb, hd]

/-- Settles O41: the two directions of a change are cases of `tvalid_cases`, and a table that is valid is not the one
that `TBUILD` is writing, by the invariant. -/
theorem tableValidityLifecycle : Obligations.TableValidityLifecycle := by
  intro s t hs h
  have tr := Transition.of_step h
  refine ⟨fun hf ht => ?_, fun ht hf => ?_, fun he => ?_, fun a c b he hr hb hd => ?_,
    fun b he hb hk hc => ?_, fun htv htv' => ?_⟩
  · rcases tr.tvalid_cases with hsame | ⟨-, hset⟩ | ⟨hclear, -⟩
    · exact absurd (hf.symm.trans (hsame.symm.trans ht)) Bool.false_ne_true
    · exact hset
    · exact absurd (hclear.symm.trans ht) Bool.false_ne_true
  · rcases tr.tvalid_cases with hsame | ⟨hset, -⟩ | ⟨-, hclear⟩
    · exact absurd (hf.symm.trans (hsame.trans ht)) Bool.false_ne_true
    · exact absurd (hf.symm.trans hset) Bool.false_ne_true
    · exact hclear
  · cases (step_of_nextEvent he).symm.trans h
    rfl
  · have hx : exec (.tbuild b) (takeEvent s) = .next t :=
      (hostWrite_accepts (s := takeEvent s) hr hb hd).symm.trans ((step_of_nextEvent he).symm.trans h)
    cases (exec_idle (i := .tbuild b) (s := takeEvent s) hb nofun).symm.trans hx
    simp [opcodeOf]
  · have hx : exec (.tbuild b) (takeEvent s) = .next t :=
      (engineStep_busy (s := takeEvent s) hb hc).symm.trans ((step_of_nextEvent he).symm.trans h)
    rw [exec_busy_tbuild (s := takeEvent s) hb, takeEvent_w, if_neg hk] at hx
    cases hx
    rfl
  · rcases tr.tbl_cases with hsame | ⟨-, hclear⟩ | ⟨-, hb, h3⟩
    · exact hsame
    · exact absurd (hclear.symm.trans htv') Bool.false_ne_true
    · exact absurd ((hs.building hb h3).symm.trans htv) Bool.false_ne_true

end TableValidity

section Parameters

/-- R7: the parameters are fixed. -/
theorem Transition.params_eq {s t : State} {e : Event} (h : Transition s e t) : t.params = s.params := by
  cases h with
  | regWrite _ _ => exact writeReg_params _ _ _
  | hostRead | lost | illegal | accepted | noTable | idle | busError | byte | complete | entry | built | rst
    | busWrite | makeVisible => rfl

/-- Settles O44: no transition changes the parameters. -/
theorem identificationNeverChanges : Obligations.IdentificationNeverChanges := by
  intro s t h
  have hp : t.params = s.params := (Transition.of_step h).params_eq
  simp [readReg, hp, Config.idValue]

end Parameters

end Sys2Proof.Machine
end

section
/-! SUPPORT. The register window: which accesses have a step, what a whole-word read returns and what a whole-word write
does (10_state.md R22 to R41, R48). -/

namespace Sys2Proof.Machine

section Access

/-- The slots begin at the multiples of 4 (R22). -/
theorem regAt_isSome_iff {n : Nat} (hn : n < 64) : (∃ r, regAt n = some r) ↔ n % 4 = 0 := by
  rw [← Option.isSome_iff_exists]
  revert n
  decide

/-- R23, inside the window. -/
theorem resolve_ok {base : Word} {a : Access} (hin : (a.addr - base).toNat < 64)
    (hw : a.bits = 32 ∧ a.enables = 0xF#4) (h4 : (a.addr - base).toNat % 4 = 0) :
    ∃ r, resolve base a = .ok r := by
  obtain ⟨r, hr⟩ := (regAt_isSome_iff hin).2 h4
  exact ⟨r, by simp only [resolve, Nat.not_le.2 hin, hw, hr, and_self, if_true, if_false]⟩

theorem resolve_unsupported {base : Word} {a : Access} (hin : (a.addr - base).toNat < 64)
    (hbad : ¬ ((a.bits = 32 ∧ a.enables = 0xF#4) ∧ (a.addr - base).toNat % 4 = 0)) :
    resolve base a = .error .unsupportedAccess := by
  by_cases hw : a.bits = 32 ∧ a.enables = 0xF#4
  · have hnone : regAt (a.addr - base).toNat = none := by
      rw [Option.eq_none_iff_forall_ne_some]
      exact fun r hr => hbad ⟨hw, (regAt_isSome_iff hin).1 ⟨r, hr⟩⟩
    simp only [resolve, Nat.not_le.2 hin, hw, hnone, and_self, if_true, if_false]
  · simp only [resolve, Nat.not_le.2 hin, hw, if_false]

/-- The window is aligned (R7), so alignment of the offset is alignment of the address. -/
theorem offset_aligned_iff {base addr : Word} (hbase : base.toNat % 64 = 0) :
    (addr - base).toNat % 4 = 0 ↔ addr.toNat % 4 = 0 := by
  bv_omega

theorem presentCommand_next (c : Word) (s : State) : ∃ t, presentCommand c s = .next t := by
  rcases presentCommand_cases c s with ⟨-, e⟩ | ⟨-, -, e⟩ | ⟨-, i, -, e⟩
  · exact ⟨_, e⟩
  · exact ⟨_, e⟩
  · rw [e]
    exact exec_next i s

theorem hostRead_of_resolve {s : State} {a : Access} {r : Reg} (hr : resolve s.params.crcBase a = .ok r) :
    hostRead a s = .next { s with hostReads := (a.addr, readReg s r) :: s.hostReads } := by
  simp only [hostRead, hr]

theorem hostWrite_next {s : State} {a : Access} {r : Reg} (hr : resolve s.params.crcBase a = .ok r) (v : Word) :
    ∃ t, hostWrite a v s = .next t := by
  rcases hostWrite_cases a v s with ⟨e, he, -⟩ | ⟨-, e⟩ | ⟨r', -, -, e⟩
  · cases hr.symm.trans he
  · rw [e]
    exact presentCommand_next v s
  · exact ⟨_, e⟩

/-- Settles O52: an aligned whole-word access resolves to a slot, and every other one is refused by `resolve`. -/
theorem onlyAlignedWordAccessesHaveAStep : Obligations.OnlyAlignedWordAccessesHaveAStep := by
  intro s a v hbase hin
  refine ⟨fun ⟨hbits, h4, hen⟩ => ?_, fun hbad => ?_⟩
  · obtain ⟨r, hr⟩ := resolve_ok hin ⟨hbits, hen⟩ ((offset_aligned_iff hbase).2 h4)
    exact ⟨⟨_, hostRead_of_resolve hr⟩, hostWrite_next hr v⟩
  · have hr : resolve s.params.crcBase a = .error .unsupportedAccess :=
      resolve_unsupported hin fun ⟨⟨hbits, hen⟩, h4⟩ => hbad ⟨hbits, (offset_aligned_iff hbase).1 h4, hen⟩
    simp only [hostRead, hostWrite, hr, and_self]

end Access

section WholeWord

theorem hostRead_access (s : State) (r : Reg) :
    hostRead (r.access s.params.crcBase) s =
      .next { s with hostReads := ((r.access s.params.crcBase).addr, readReg s r) :: s.hostReads } :=
  hostRead_of_resolve (resolve_access _ r)

theorem hostWrite_access {r : Reg} (hc : r ≠ .cmd) (s : State) (v : Word) :
    hostWrite (r.access s.params.crcBase) v s = .next (writeReg v s r) := by
  simp only [hostWrite, resolve_access, hc, if_false]

theorem hostWrite_cmd_access (s : State) (v : Word) :
    hostWrite (Reg.cmd.access s.params.crcBase) v s = presentCommand v s := by
  simp only [hostWrite, resolve_access, if_true]

theorem zextBit_getLsbD_zero (m : Bool) : (zextBit m).getLsbD 0 = m := by
  cases m <;> rfl

theorem zextBit_reserved (m : Bool) : (zextBit m).extractLsb' 1 31 = 0#31 := by
  cases m <;> rfl

theorem zext32_setWidth (b : Byte) : (zext32 b).setWidth 8 = b :=
  BitVec.setWidth_setWidth_of_le b (by decide)

theorem zext32_reserved (b : Byte) : (zext32 b).extractLsb' 8 24 = 0#24 := by
  ext i hi
  simp [zext32]

/-- Settles O46: the access to a slot resolves to it, and the value is the slot's case of `readReg`. -/
theorem hostReadsReturnTheRegisters : Obligations.HostReadsReturnTheRegisters := by
  refine ⟨hostRead_access, fun s => ⟨rfl, rfl, rfl, rfl, rfl, rfl, rfl, rfl, rfl, rfl, rfl, ?_, ?_, ?_, ?_, ?_⟩⟩
  · exact fun hv => if_pos hv
  · exact fun hv => if_neg (Bool.eq_false_iff.1 hv)
  · exact zextBit_getLsbD_zero _
  · exact zextBit_getLsbD_zero _
  · exact zext32_setWidth _

end WholeWord

section StatusWord

/-- R31: the one-bit fields. -/
theorem statusWord_bits (st : Status) :
    st.word.getLsbD 0 = st.busy ∧ st.word.getLsbD 1 = st.done ∧ st.word.getLsbD 2 = st.err ∧
    st.word.getLsbD 3 = st.cmdLost ∧ st.word.getLsbD 8 = st.tvalid := by
  simp only [Status.word, BitVec.getLsbD_append]
  simp

theorem statusWord_ecode (st : Status) : st.word.extractLsb' 4 4 = st.ecode := by
  refine BitVec.eq_of_getLsbD_eq fun i hi => ?_
  simp only [Status.word, BitVec.getLsbD_extractLsb', BitVec.getLsbD_append, hi, decide_true, Bool.true_and]
  grind

theorem statusWord_reserved (st : Status) : st.word.extractLsb' 9 23 = 0#23 := by
  refine BitVec.eq_of_getLsbD_eq fun i hi => ?_
  simp only [Status.word, BitVec.getLsbD_extractLsb', BitVec.getLsbD_append, hi, decide_true, Bool.true_and]
  grind

/-- Settles O47: the fields of the word that a read of `STATUS` returns. -/
theorem statusBitsStandWhereR31Says : Obligations.StatusBitsStandWhereR31Says := by
  intro s
  obtain ⟨hbusy, hdone, herr, hlost, hvalid⟩ := statusWord_bits s.status
  exact ⟨hbusy, hdone, herr, hlost, statusWord_ecode _, hvalid, statusWord_reserved _⟩

/-- R32: only bits 3:1 of a word written to `STATUS` count. -/
theorem clearedBy_congr {v v' : Word} (h : v.extractLsb' 1 3 = v'.extractLsb' 1 3) (st : Status) :
    st.clearedBy v = st.clearedBy v' := by
  have hbit : ∀ i < 3, v.getLsbD (1 + i) = v'.getLsbD (1 + i) := fun i hi => by
    simpa [hi] using congrArg (BitVec.getLsbD · i) h
  simp only [Status.clearedBy, hbit 0 (by decide), hbit 1 (by decide), hbit 2 (by decide)]

/-- R32, bit by bit. -/
theorem clearedBy_eq (v : Word) (st : Status) : st.clearedBy v = { st with
    done := if v.getLsbD 1 then false else st.done
    err := if v.getLsbD 2 then false else st.err
    ecode := if v.getLsbD 2 then 0#4 else st.ecode
    cmdLost := if v.getLsbD 3 then false else st.cmdLost } := by
  have hclear : ∀ flag bit : Bool, (flag && !bit) = if bit then false else flag := by decide
  simp only [Status.clearedBy, hclear]

/-- Settles O50: the write to `STATUS` is `Status.clearedBy`. -/
theorem statusWriteClearsItsBits : Obligations.StatusWriteClearsItsBits := by
  intro s v
  refine ⟨_, hostWrite_access (by decide) s v, ?_, fun _ => rfl⟩
  rw [← clearedBy_eq]
  rfl

end StatusWord

section Writes

theorem setWidth_eight (v : Word) : v.setWidth 8 = v.extractLsb' 0 8 :=
  BitVec.setWidth_eq_extractLsb' (by decide)

/-- R24, R25: the slots that a write leaves alone. -/
theorem writeReg_readOnly {r : Reg} (hr : r ∈ [Reg.id, .cap, .hwpoly, .result, .tdata, .faddr, .reserved])
    (v : Word) (s : State) : writeReg v s r = s := by
  simp only [List.mem_cons, List.not_mem_nil, or_false] at hr
  rcases hr with rfl | rfl | rfl | rfl | rfl | rfl | rfl <;> rfl

/-- R25: a recorded read leaves what every slot reads. -/
theorem readReg_hostReads (s : State) (log : List (Word × Word)) (r : Reg) :
    readReg { s with hostReads := log } r = readReg s r := by
  cases r <;> rfl

/-- Settles O49: the access to a slot is that slot's case of `writeReg`, or `presentCommand` for `CMD`. -/
theorem hostWritesTakeEffectAtOnce : Obligations.HostWritesTakeEffectAtOnce := by
  intro s v
  refine ⟨hostWrite_access (by decide) s v, hostWrite_access (by decide) s v, hostWrite_access (by decide) s v,
    hostWrite_access (by decide) s v, hostWrite_access (by decide) s v, hostWrite_access (by decide) s v, ?_,
    hostWrite_cmd_access s v⟩
  rw [← setWidth_eight]
  exact hostWrite_access (by decide) s v

/-- Settles O48: reserved bits of the words read, read-only slots, the bits that a write ignores, and reads. -/
theorem reservedAndReadOnlyBitsIgnoreWrites : Obligations.ReservedAndReadOnlyBitsIgnoreWrites := by
  refine ⟨fun s => ⟨zextBit_reserved _, zextBit_reserved _, statusWord_reserved _, zext32_reserved _, rfl, rfl⟩,
    fun s r v hr => ?_, fun s v v' h => ?_, fun s v v' h => ?_, fun s v v' h => ?_, fun s t a r h => ?_⟩
  · have hc : r ≠ .cmd := fun e => absurd (e ▸ hr) (by decide)
    rw [hostWrite_access hc, writeReg_readOnly hr]
  · rw [hostWrite_access (by decide), hostWrite_access (by decide), writeReg, writeReg, h]
  · rw [hostWrite_access (by decide), hostWrite_access (by decide), writeReg, writeReg, clearedBy_congr h]
  · rw [hostWrite_access (by decide), hostWrite_access (by decide), writeReg, writeReg, setWidth_eight,
      setWidth_eight, h]
  · cases Transition.of_agentStep (e := .hostRead a) h with
    | hostRead _ => exact readReg_hostReads s _ r

end Writes

section Reset

theorem engineStep_idle {s : State} (hb : s.status.busy = false) : engineStep s = .next s := by
  simp [engineStep, hb]

theorem statusWord_zero : Status.zero.word = 0#32 := by decide

/-- Settles O54: the fields of `rstStep`, and an idle engine. -/
theorem resetSetsEveryRegister : Obligations.ResetSetsEveryRegister := by
  intro s t h
  cases Transition.of_agentStep h with
  | rst =>
    exact ⟨rfl, rfl, rfl, rfl, statusWord_zero, rfl, rfl, rfl, rfl, rfl, rfl, rfl, rfl, rfl, rfl, rfl, rfl,
      engineStep_idle rfl⟩

end Reset

end Sys2Proof.Machine
end

section
/-! SUPPORT. A command in progress: what the core holds after `k` of its engine steps, whatever the host did between
them (10_state.md R44; 60_exceptions.md R168; 70_reset_and_hazards.md R199, R201). -/

namespace Sys2Proof.Machine

section MessagePrefix

theorem messageBytes_succ (m : Memory) (addr : Word) (k : Nat) :
    messageBytes m addr (k + 1) = messageBytes m addr k ++ [m.read (addr + BitVec.ofNat 32 k).toNat] := by
  simp [messageBytes, List.range_succ]

theorem readAddresses_succ (addr : Word) (k : Nat) :
    readAddresses addr (k + 1) = (addr + BitVec.ofNat 32 k) :: readAddresses addr k := by
  simp [readAddresses, List.range_succ]

/-- The accumulator of command `i`, accepted in `s`, after `k` bytes of the message. -/
def accumulatorAfter (i : Instr) (s : State) (k : Nat) : Word :=
  (messageBytes s.mem s.addr k).foldl (byteUpdate i { s with w := snapshot i (seedOf i s) s }) (seedOf i s)

theorem accumulatorAfter_succ (i : Instr) (s : State) (k : Nat) :
    accumulatorAfter i s (k + 1) = byteUpdate i { s with w := snapshot i (seedOf i s) s }
      (accumulatorAfter i s k) (s.mem.read (s.addr + BitVec.ofNat 32 k).toNat) := by
  simp [accumulatorAfter, messageBytes_succ]

theorem accumulatorAfter_tbuild_succ (b : Bool) (s : State) (k : Nat) :
    accumulatorAfter (.tbuild b) s (k + 1) = accumulatorAfter (.tbuild b) s k :=
  accumulatorAfter_succ _ s k

/-- The update of a command depends on the polynomial, the table and the parameters alone. -/
theorem byteUpdate_congr {t u : State} (i : Instr) (hpoly : t.w.poly = u.w.poly) (htbl : t.tbl = u.tbl)
    (hparams : t.params = u.params) : byteUpdate i t = byteUpdate i u := by
  cases i <;> simp [byteUpdate, hpoly, htbl, hparams]

/-- The accumulator of the whole message, completed, is the command's value. -/
theorem finalValue_eq_commandValue {i : Instr} {s t : State} (hi : readsMessage i = true)
    (hacc : t.w.acc = accumulatorAfter i s s.len.toNat) (hfxor : t.w.fxor = s.fxor) :
    finalValue i t = commandValue i s := by
  cases i with
  | tbuild b => cases hi
  | divs | divb | hweval =>
    rw [finalValue, hacc, hfxor]
    rfl
  | teval =>
    rw [finalValue, hacc]
    rfl

end MessagePrefix

/-- State `t` runs command `i`, accepted in `s`, and has taken `k` of its engine steps; no byte of memory has been
written and every earlier write is visible. -/
structure InProgress (i : Instr) (s : State) (k : Nat) (t : State) : Prop where
  busy : t.status.busy = true
  err : t.status.err = false
  ecode : t.status.ecode = 0#4
  params : t.params = s.params
  mem : t.mem = s.mem
  result : t.result = s.result
  faddr : t.faddr = s.faddr
  unsynced : t.unsynced = []
  window : t.window = []
  working : t.w = { snapshot i (accumulatorAfter i s k) s with k := BitVec.ofNat 32 k }
  message : readsMessage i = true → t.tbl = s.tbl ∧ t.status.tvalid = s.status.tvalid ∧
    t.msgReads = readAddresses s.addr k ++ s.msgReads
  entries : readsMessage i = false →
    (∀ j : Byte, j.toNat < k → tblGet t.tbl j = zext32 j) ∧ t.msgReads = s.msgReads

section Acceptance

theorem decode_encode (i : Instr) : decode (encode i) = .ok i := by
  cases i with
  | tbuild b => cases b <;> decide
  | divs | divb | teval | hweval => decide

theorem accept_inProgress {i : Instr} {s : State} (hu : s.unsynced = []) :
    InProgress i s 0 (accept i (opcodeOf i == 3#4) (seedOf i s) s) where
  busy := rfl
  err := rfl
  ecode := rfl
  params := rfl
  mem := rfl
  result := rfl
  faddr := rfl
  unsynced := hu
  window := rfl
  working := rfl
  message hi := ⟨rfl, by simp [opcodeOf_ne_three hi], rfl⟩
  entries _ := ⟨fun j hj => absurd hj (Nat.not_lt_zero _), rfl⟩

end Acceptance

section HostSteps

variable {i : Instr} {s t : State} {k : Nat}

theorem Access.supported_iff {base : Word} {a : Access} :
    a.supported base = true ↔ ∃ r, resolve base a = .ok r := by
  cases h : resolve base a <;> simp [Access.supported, h]

@[simp] theorem writeReg_status_status (v : Word) (s : State) :
    (writeReg v s .status).status = s.status.clearedBy v := rfl

theorem InProgress.writeReg (h : InProgress i s k t) (v : Word) (r : Reg) :
    InProgress i s k (Machine.writeReg v t r) := by
  cases r with
  | status => exact { h with err := by simp [h.err], ecode := by simp [h.ecode] }
  | id | cap | hwpoly | ctrl | cmd | poly | init | fxor | addr | len | result | tidx | tdata | faddr
    | reserved => exact { h with }

/-- Between two engine steps, no harmless event changes what the command has or reads. -/
theorem InProgress.harmless_step (h : InProgress i s k t) {e : Event}
    (hh : e.harmless s.params.crcBase = true) (he : e ≠ .engine) :
    ∃ u, agentStep e t = .next u ∧ InProgress i s k u ∧ u.events = t.events := by
  rw [← h.params] at hh
  cases e with
  | hostRead a =>
    obtain ⟨r, hr⟩ := Access.supported_iff.1 hh
    exact ⟨_, hostRead_of_resolve hr, { h with }, rfl⟩
  | hostWrite a v =>
    obtain ⟨r, hr⟩ := Access.supported_iff.1 hh
    by_cases hc : r = .cmd
    · subst hc
      exact ⟨loseCommand t, by simp [agentStep, hostWrite, hr, presentCommand, h.busy], { h with }, rfl⟩
    · exact ⟨Machine.writeReg v t r, by simp [agentStep, hostWrite, hr, hc], h.writeReg v r, by simp⟩
  | engine => exact absurd rfl he
  | rst => cases hh
  | busWrite a b => cases hh
  | makeVisible =>
    exact ⟨_, rfl, { h with unsynced := rfl, window := by simp [makeVisible, h.unsynced, h.window] }, rfl⟩

end HostSteps

section EngineSteps

variable {i : Instr} {s t : State} {k : Nat}

theorem InProgress.engineStep_eq (h : InProgress i s k t) : engineStep t = exec i t :=
  engineStep_busy h.busy (by rw [h.working]; exact commandOf_fields i)

theorem InProgress.byteAddr_eq (h : InProgress i s k t) : t.byteAddr = s.addr + BitVec.ofNat 32 k := by
  rw [State.byteAddr, h.working]
  rfl

theorem InProgress.raceValues_eq_nil (h : InProgress i s k t) {a : Word}
    (hlater : heldLater a.toNat (t.w.len - t.w.k).toNat t.events = []) : t.raceValues a = [] := by
  rw [State.raceValues, heldBefore, heldBefore, h.window, h.unsynced, hlater]
  rfl

theorem InProgress.index_lt_iff (h : InProgress i s k t) (hk : k ≤ s.len.toNat) :
    t.w.k < t.w.len ↔ k < s.len.toNat := by
  rw [h.working]
  simp only [snapshot_len]
  bv_omega

theorem InProgress.entry_lt_iff (h : InProgress i s k t) (hk : k ≤ 256) : t.w.k < 256#32 ↔ k < 256 := by
  rw [h.working]
  bv_omega

theorem InProgress.advance (h : InProgress i s k t) (hi : readsMessage i = true) :
    InProgress i s (k + 1) ((t.issueRead t.byteAddr).advance
      (byteUpdate i t t.w.acc (t.mem.read t.byteAddr.toNat))) := by
  obtain ⟨htbl, htv, hreads⟩ := h.message hi
  have hupdate : byteUpdate i t = byteUpdate i { s with w := snapshot i (seedOf i s) s } :=
    byteUpdate_congr i (by rw [h.working]; rfl) htbl h.params
  exact { h with
    working := by
      rw [advance_w, issueRead_w, hupdate, h.byteAddr_eq, h.mem, h.working, accumulatorAfter_succ,
        BitVec.ofNat_add]
      rfl
    message := fun _ => ⟨htbl, htv, by
      rw [advance_msgReads, issueRead_msgReads, hreads, readAddresses_succ, h.byteAddr_eq, List.cons_append]⟩
    entries := fun hi' => absurd (hi.symm.trans hi') nofun }

/-- One engine step over a message byte that neither fails nor races. -/
theorem InProgress.byte_step (h : InProgress i s k t) (hi : readsMessage i = true) (hk : k < s.len.toNat)
    (he : busErrAt s.params (s.addr + BitVec.ofNat 32 k) = false) (hrace : t.raceValues t.byteAddr = []) :
    ∃ u, engineStep t = .next u ∧ InProgress i s (k + 1) u ∧ u.events = t.events := by
  have hread : busErrAt t.params t.byteAddr = false := by rwa [h.byteAddr_eq, h.params]
  refine ⟨_, ?_, h.advance hi, rfl⟩
  rw [h.engineStep_eq, exec_busy hi h.busy, messageStep_byte _ _ ((h.index_lt_iff hk.le).2 hk),
    byteStep_content _ hread hrace]

/-- One engine step of `TBUILD`. -/
theorem InProgress.entry_step {b : Bool} (h : InProgress (.tbuild b) s k t) (hk : k < 256) :
    ∃ u, engineStep t = .next u ∧ InProgress (.tbuild b) s (k + 1) u ∧ u.events = t.events := by
  obtain ⟨hentries, hreads⟩ := h.entries rfl
  have hindex : t.w.k.setWidth 8 = BitVec.ofNat 8 k := by
    rw [h.working]
    bv_omega
  refine ⟨tableStep t, ?_, ?_, rfl⟩
  · rw [h.engineStep_eq, exec_busy_tbuild h.busy, if_pos ((h.entry_lt_iff hk.le).2 hk)]
  · exact { h with
      working := by
        rw [tableStep_w, h.working, accumulatorAfter_tbuild_succ]
        simp [BitVec.ofNat_add]
      message := fun hi => nomatch hi
      entries := fun _ => ⟨fun j hj => by
        rw [tableStep_tbl, tblGet_tblSet, hindex]
        split
        next hnew => rw [tableEntry_eq_byte, hnew]
        next hold => exact hentries j (by
          have hne : j.toNat ≠ k := fun e => hold (by bv_omega)
          omega), hreads⟩ }

/-- The completion step of a command that reads the message. -/
theorem InProgress.complete_message (h : InProgress i s s.len.toNat t) (hi : readsMessage i = true) :
    engineStep t = .next (completeResult (commandValue i s) t) := by
  have hacc : t.w.acc = accumulatorAfter i s s.len.toNat := by rw [h.working]; rfl
  have hfxor : t.w.fxor = s.fxor := by rw [h.working]; rfl
  have hdone : ¬ t.w.k < t.w.len := fun hlt => Nat.lt_irrefl _ ((h.index_lt_iff le_rfl).1 hlt)
  rw [h.engineStep_eq, exec_busy hi h.busy, messageStep_complete _ _ hdone,
    finalValue_eq_commandValue hi hacc hfxor]

/-- The completion step of `TBUILD`. -/
theorem InProgress.complete_table {b : Bool} (h : InProgress (.tbuild b) s 256 t) :
    engineStep t = .next (completeTable t) := by
  rw [h.engineStep_eq, exec_busy_tbuild h.busy, if_neg fun hlt => Nat.lt_irrefl _ ((h.entry_lt_iff le_rfl).1 hlt)]

theorem engineSteps_of_readsMessage {i : Instr} (hi : readsMessage i = true) (s : State) :
    engineSteps i s = s.len.toNat := by
  cases i with
  | tbuild b => cases hi
  | divs | divb | teval | hweval => rfl

/-- Any engine step before the completion step, where no later write falls into the command. -/
theorem InProgress.engine_step (h : InProgress i s k t) (hk : k < engineSteps i s)
    (hread : readsMessage i = true → s.messageReadable)
    (hlater : ∀ a, heldLater a (engineSteps i s - k) t.events = []) :
    ∃ u, agentStep .engine t = .next u ∧ InProgress i s (k + 1) u ∧ u.events = t.events := by
  cases hi : readsMessage i with
  | true =>
    rw [engineSteps_of_readsMessage hi] at hk hlater
    have hleft : (t.w.len - t.w.k).toNat = s.len.toNat - k := by
      rw [h.working]
      simp only [snapshot_len]
      bv_omega
    exact h.byte_step hi hk (hread hi k hk) (h.raceValues_eq_nil (by rw [hleft]; exact hlater _))
  | false =>
    obtain ⟨b, rfl⟩ := exists_tbuild_of_not_readsMessage hi
    exact h.entry_step hk

end EngineSteps

section Schedules

theorem Event.harmless_writesMemory {base : Word} {e : Event} (h : e.harmless base = true) :
    e.writesMemory = false := by
  cases e with
  | busWrite a b => cases h
  | hostRead | hostWrite | engine | rst | makeVisible => rfl

/-- A write scheduled after the completion step is no value of the command's bytes. -/
theorem heldLater_before_completion {evs : List Event} (rest : List Event)
    (h : ∀ e ∈ evs, e.writesMemory = false) (a : Nat) :
    heldLater a (evs.count .engine + 1) (evs ++ .engine :: rest) = [] := by
  induction evs with
  | nil => cases rest <;> rfl
  | cons e evs ih =>
    have ih' := ih fun d hd => h d (List.mem_cons_of_mem _ hd)
    have he : e.writesMemory = false := h e List.mem_cons_self
    cases e with
    | busWrite x b => cases he
    | rst => rfl
    | engine => rw [List.count_cons_self]; exact ih'
    | hostRead | hostWrite | makeVisible => rw [List.count_cons_of_ne (by simp)]; exact ih'

theorem runSteps_add {m : Nat} {s t : State} (h : runSteps m s = .next t) (n : Nat) :
    runSteps (m + n) s = runSteps n t := by
  induction m generalizing s with
  | zero =>
    cases h
    rw [Nat.zero_add]
  | succ m ih =>
    rw [Nat.succ_add]
    cases hstep : step s with
    | next u =>
      rw [runSteps_succ hstep] at h ⊢
      exact ih h
    | fault r => simp [runSteps, hstep] at h
    | refused r => simp [runSteps, hstep] at h

theorem InProgress.withEvents {i : Instr} {s t : State} {k : Nat} (h : InProgress i s k t) (es : List Event) :
    InProgress i s k { t with events := es } := { h with }

/-- Any harmless schedule takes the command as far as it has engine steps. -/
theorem InProgress.run {i : Instr} {s t : State} {k : Nat} {evs rest : List Event} (h : InProgress i s k t)
    (hread : readsMessage i = true → s.messageReadable) (hev : t.events = evs ++ .engine :: rest)
    (hh : ∀ e ∈ evs, e.harmless s.params.crcBase = true) (hcount : k + evs.count .engine = engineSteps i s) :
    ∃ u, runSteps evs.length t = .next u ∧ InProgress i s (engineSteps i s) u ∧
      u.events = .engine :: rest := by
  induction evs generalizing k t with
  | nil => exact ⟨t, rfl, hcount ▸ h, hev⟩
  | cons e evs ih =>
    have htail : ∀ d ∈ evs, d.harmless s.params.crcBase = true := fun d hd => hh d (List.mem_cons_of_mem _ hd)
    have hstep := step_cons hev
    by_cases he : e = .engine
    · subst he
      rw [List.count_cons_self] at hcount
      have hlater : ∀ a, heldLater a (engineSteps i s - k) (evs ++ .engine :: rest) = [] := fun a => by
        rw [← hcount, Nat.add_sub_cancel_left]
        exact heldLater_before_completion rest (fun d hd => Event.harmless_writesMemory (htail d hd)) a
      obtain ⟨u, hu, hprog, hue⟩ := (h.withEvents _).engine_step (by omega) hread hlater
      obtain ⟨v, hv⟩ := ih hprog hue htail (by omega)
      exact ⟨v, (runSteps_succ (hstep.trans hu)).trans hv.1, hv.2⟩
    · rw [List.count_cons_of_ne he] at hcount
      obtain ⟨u, hu, hprog, hue⟩ := (h.withEvents _).harmless_step (hh e List.mem_cons_self) he
      obtain ⟨v, hv⟩ := ih hprog hue htail hcount
      exact ⟨v, (runSteps_succ (hstep.trans hu)).trans hv.1, hv.2⟩

end Schedules

section Interleaving

/-- What `InterleavingKeepsTheResult` says of the state `t` in which command `i`, accepted in `s`, has completed. -/
structure CompletedFrom (i : Instr) (s t : State) : Prop where
  result : t.result = commandValue i s
  busy : t.status.busy = false
  done : t.status.done = true
  err : t.status.err = false
  ecode : t.status.ecode = 0#4
  faddr : t.faddr = s.faddr
  message : readsMessage i = true → t.tbl = s.tbl ∧ t.status.tvalid = s.status.tvalid ∧
    t.msgReads = readAddresses s.addr s.len.toNat ++ s.msgReads
  table : readsMessage i = false →
    t.status.tvalid = true ∧ (∀ j : Byte, tblGet t.tbl j = zext32 j) ∧ t.msgReads = s.msgReads

theorem InProgress.complete {i : Instr} {s t : State} (h : InProgress i s (engineSteps i s) t) :
    ∃ u, agentStep .engine t = .next u ∧ CompletedFrom i s u ∧ u.events = t.events := by
  cases hi : readsMessage i with
  | true =>
    rw [engineSteps_of_readsMessage hi] at h
    exact ⟨_, h.complete_message hi, ⟨rfl, rfl, rfl, h.err, h.ecode, h.faddr, h.message,
      fun hi' => absurd (hi.symm.trans hi') nofun⟩, rfl⟩
  | false =>
    obtain ⟨b, rfl⟩ := exists_tbuild_of_not_readsMessage hi
    obtain ⟨hentries, hreads⟩ := h.entries rfl
    exact ⟨_, h.complete_table, ⟨h.result, rfl, rfl, h.err, h.ecode, h.faddr, nofun,
      fun _ => ⟨rfl, fun j => hentries j j.isLt, hreads⟩⟩, rfl⟩

/-- Acceptance, the harmless schedule, and the completion step, from the state that the `CMD` write finds. -/
theorem completed_of_schedule {i : Instr} {s : State} {a : Access} {evs rest : List Event}
    (hb : s.status.busy = false) (ht : i = .teval → s.status.tvalid = true)
    (hread : readsMessage i = true → s.messageReadable) (hu : s.unsynced = [])
    (hr : resolve s.params.crcBase a = .ok .cmd) (hev : s.events = evs ++ .engine :: rest)
    (hh : ∀ e ∈ evs, e.harmless s.params.crcBase = true) (hcount : evs.count .engine = engineSteps i s) :
    ∃ t u v, agentStep (.hostWrite a (encode i)) s = .next t ∧ runSteps evs.length t = .next u ∧
      step u = .next v ∧ CompletedFrom i s v ∧ v.events = rest := by
  obtain ⟨u, hrun, hprog, hue⟩ := (accept_inProgress (i := i) hu).run hread hev hh (by rw [Nat.zero_add, hcount])
  obtain ⟨v, hv, hdone, hve⟩ := (hprog.withEvents rest).complete
  exact ⟨_, u, v, (hostWrite_accepts hr hb (decode_encode i)).trans (exec_idle hb ht), hrun,
    (step_cons hue).trans hv, hdone, hve⟩

/-- Settles O30: the command is accepted, runs through the schedule, and its next engine step completes it. -/
theorem interleavingKeepsTheResult : Obligations.InterleavingKeepsTheResult := by
  intro i s a evs rest hb ht hread hu hr hev hh hcount
  obtain ⟨t, u, v, haccept, hrun, hcomplete, hdone, hve⟩ :=
    completed_of_schedule (s := { s with events := evs ++ .engine :: rest }) hb ht hread hu hr rfl hh
      (hcount.trans (by cases i <;> rfl))
  refine ⟨v, ?_, hdone.result.trans (by cases i <;> rfl), hdone.busy, hdone.done, hdone.err, hdone.ecode,
    hdone.faddr, hve, hdone.message, hdone.table⟩
  calc runSteps (evs.length + 2) s
      = runSteps (evs.length + 1) t := runSteps_succ ((step_cons hev).trans haccept)
    _ = runSteps 1 u := runSteps_add hrun 1
    _ = .next v := runSteps_succ hcomplete

end Interleaving

end Sys2Proof.Machine
end

section
/-! SUPPORT. Message memory: the canonical form is unique, the core only reads memory, one byte a step, and a write is
seen old or new until it is made visible (20_memory.md R60 to R65, R70, R74). -/

namespace Sys2Proof.Machine

section CanonicalForm

variable {c d : Host.Cell} {m m' : Memory}

theorem Memory.wf_tail (h : Memory.wf (c :: m)) : Memory.wf m :=
  ⟨h.1.of_cons, fun d hd => h.2 d (List.mem_cons_of_mem c hd)⟩

theorem Memory.read_head (c : Host.Cell) (m : Memory) : Memory.read (c :: m) c.1 = c.2 :=
  if_pos rfl

/-- Memory lists no byte that reads as an unlisted one. -/
theorem Memory.read_head_ne_blank (h : Memory.wf (c :: m)) : Memory.read (c :: m) c.1 ≠ Memory.blank := by
  rw [Memory.read_head]
  exact (h.2 c List.mem_cons_self).2

/-- The addresses rise, so the tail holds nothing at the head's address. -/
theorem Memory.read_tail_head (h : Memory.wf (c :: m)) : Memory.read m c.1 = Memory.blank :=
  Memory.read_below (List.pairwise_cons.1 h.1).1

theorem Memory.read_below_head (h : Memory.wf (c :: m)) {a : Nat} (ha : a < c.1) :
    Memory.read (c :: m) a = Memory.blank := by
  refine Memory.read_below fun d hd => ?_
  rcases List.mem_cons.1 hd with rfl | hd
  · exact ha
  · exact ha.trans ((List.pairwise_cons.1 h.1).1 d hd)

/-- The first listed address of a memory is the first that does not read as unlisted. -/
theorem Memory.head_le_of_read_eq (hm : Memory.wf (c :: m)) (hm' : Memory.wf (d :: m'))
    (h : ∀ a, Memory.read (c :: m) a = Memory.read (d :: m') a) : d.1 ≤ c.1 := by
  by_contra hlt
  exact Memory.read_head_ne_blank hm ((h c.1).trans (Memory.read_below_head hm' (Nat.lt_of_not_le hlt)))

theorem Memory.head_eq_of_read_eq (hm : Memory.wf (c :: m)) (hm' : Memory.wf (d :: m'))
    (h : ∀ a, Memory.read (c :: m) a = Memory.read (d :: m') a) : c = d := by
  have haddr : c.1 = d.1 := Nat.le_antisymm
    (Memory.head_le_of_read_eq hm' hm fun a => (h a).symm) (Memory.head_le_of_read_eq hm hm' h)
  have hbyte : c.2 = d.2 := by
    rw [← Memory.read_head c m, h, haddr, Memory.read_head]
  exact Prod.ext haddr hbyte

theorem Memory.tail_read_eq (hm : Memory.wf (c :: m)) (hm' : Memory.wf (c :: m'))
    (h : ∀ a, Memory.read (c :: m) a = Memory.read (c :: m') a) (a : Nat) :
    Memory.read m a = Memory.read m' a := by
  by_cases ha : c.1 = a
  · rw [← ha, Memory.read_tail_head hm, Memory.read_tail_head hm']
  · simpa only [Memory.read_cons, if_neg ha] using h a

/-- Settles O45, by induction on both lists: the heads are equal, and the tails read alike. -/
theorem memoriesThatReadAlikeAreEqual : Obligations.MemoriesThatReadAlikeAreEqual := by
  intro m
  induction m with
  | nil =>
    intro m' _ hm' h
    cases m' with
    | nil => rfl
    | cons d m' => exact absurd (h d.1).symm (Memory.read_head_ne_blank hm')
  | cons c m ih =>
    intro m' hm hm' h
    cases m' with
    | nil => exact absurd (h c.1) (Memory.read_head_ne_blank hm)
    | cons d m' =>
      obtain rfl := Memory.head_eq_of_read_eq hm hm' h
      rw [ih m' (Memory.wf_tail hm) (Memory.wf_tail hm') (Memory.tail_read_eq hm hm' h)]

end CanonicalForm

section MessageReads

/-- R61: memory changes only where another bus master writes it. -/
theorem Transition.mem_eq {s t : State} {e : Event} (h : Transition s e t) (he : e.writesMemory = false) :
    t.mem = s.mem := by
  cases h with
  | busWrite _ _ => cases he
  | regWrite _ _ => exact writeReg_mem _ _ _
  | hostRead | lost | illegal | accepted | noTable | idle | busError | byte | complete | entry | built | rst
    | makeVisible => rfl

/-- Settles O38: no transition but a bus master's write changes memory, and that write is `Memory.write`. -/
theorem coreNeverWritesTheMessageSpace : Obligations.CoreNeverWritesTheMessageSpace := by
  refine ⟨fun e s t h he a => ?_, fun s t x b hm h a => ?_⟩
  · rw [(Transition.of_agentStep h).mem_eq he]
  · cases Transition.of_agentStep h with
    | busWrite _ _ => exact Memory.read_write hm.1 x.toNat a b

/-- R63 to R65, R70: only an engine step over a message byte reads memory, and it moves on or ends the command. -/
theorem Transition.msgReads_cases {s t : State} {e : Event} (h : Transition s e t) :
    t.msgReads = s.msgReads ∨
    (e = .engine ∧ s.status.busy = true ∧ s.w.k < s.w.len ∧
      (∃ i, commandOf s.w.op s.w.s = .ok i ∧ readsMessage i = true) ∧
      t.msgReads = s.byteAddr :: s.msgReads ∧
      ((t.status.busy = true ∧ t.w.k = s.w.k + 1#32) ∨
        (t.status.busy = false ∧ t.status.err = true ∧ t.status.ecode = 3#4))) := by
  cases h with
  | busError hb hc hi hk _ => exact .inr ⟨rfl, hb, hk, ⟨_, hc, hi⟩, rfl, .inr ⟨rfl, rfl, rfl⟩⟩
  | byte hb hc hi hk _ _ => exact .inr ⟨rfl, hb, hk, ⟨_, hc, hi⟩, rfl, .inl ⟨hb, rfl⟩⟩
  | regWrite _ _ => exact .inl (writeReg_msgReads _ _ _)
  | hostRead | lost | illegal | accepted | noTable | idle | complete | entry | built | rst | busWrite
    | makeVisible => exact .inl rfl

/-- Settles O43: a read is a case of the step's transition. -/
theorem eachByteIsReadOnce : Obligations.EachByteIsReadOnce := by
  intro s t h
  rcases (Transition.of_step h).msgReads_cases with
    hsame | ⟨he, hb, hk, hi, hread, ⟨hbusy, hnext⟩ | ⟨hidle, hfailed⟩⟩
  · exact .inl hsame
  · exact .inr ⟨he, hb, hk, hi, hread, fun _ => hnext, fun hf => absurd (hbusy.symm.trans hf) nofun⟩
  · exact .inr ⟨he, hb, hk, hi, hread, fun hf => absurd (hidle.symm.trans hf) nofun, fun _ => hfailed⟩

end MessageReads

section Visibility

/-- R161: from an idle core, a command that runs after its acceptance was accepted. -/
theorem eq_accept_of_exec {i : Instr} {s t : State} (hb : s.status.busy = false) (ht : t.status.busy = true)
    (h : exec i s = .next t) : t = accept i (opcodeOf i == 3#4) (seedOf i s) s := by
  rcases exec_cases i s with ⟨hrun, -⟩ | ⟨hrun, -⟩ | ⟨-, -, e⟩ | ⟨-, -, -, e⟩
  · cases hb.symm.trans hrun
  · cases hb.symm.trans hrun
  · exact Host.Outcome.next.inj (h.symm.trans e)
  · cases e.symm.trans h
    cases ht

/-- Where one write alone is not yet visible, its byte races with the value it replaced. -/
theorem eq_of_mem_raceValues {s : State} {x : Word} {old v : Byte} (hw : s.window = [])
    (hu : s.unsynced = [(x.toNat, old)]) (hev : ∀ e ∈ s.events, e.writesMemory = false)
    (hv : v ∈ s.raceValues x) : v = old := by
  have hmem := List.mem_of_mem_filter hv
  rw [hw, hu, heldLater_settled hev] at hmem
  simpa [heldBefore] using hmem

variable {s : State}

/-- R74: while the write is not visible, the running command reads the old or the new value. -/
theorem memRead_accept_busWrite (hm : Memory.wf s.mem) (hs : s.settled) {x : Word}
    (he : busErrAt s.params x = false) (i : Instr) (c : Bool) (acc : Word) (b : Byte) :
    (accept i c acc (busWrite x b s)).memRead x = .byte (s.mem.read x.toNat) ∨
    (accept i c acc (busWrite x b s)).memRead x = .byte b := by
  obtain ⟨hu, hev⟩ := hs
  rcases memRead_cases (accept i c acc (busWrite x b s)) x with ⟨herr, -⟩ | ⟨-, v, hread, hv⟩
  · exact absurd (he.symm.trans herr) nofun
  · rw [hread]
    rcases List.mem_cons.1 hv with hnew | hold
    · exact .inr (congrArg _ (hnew.trans (Memory.read_write_same hm _ _)))
    · exact .inl (congrArg _ (eq_of_mem_raceValues (s := accept i c acc (busWrite x b s)) rfl
        (by simp [hu]) hev hold))

/-- R74: the running command reads the new value of a write that was made visible before. -/
theorem memRead_accept_makeVisible (hm : Memory.wf s.mem) (hs : s.settled) {x : Word}
    (he : busErrAt s.params x = false) (i : Instr) (c : Bool) (acc : Word) (b : Byte) :
    (accept i c acc (makeVisible (busWrite x b s))).memRead x = .byte b := by
  obtain ⟨-, hev⟩ := hs
  have hvisible : (accept i c acc (makeVisible (busWrite x b s))).settled := ⟨rfl, hev⟩
  have hread := memRead_content (s := accept i c acc (makeVisible (busWrite x b s))) he
    (raceValues_settled rfl hvisible x)
  exact hread.trans (congrArg _ (Memory.read_write_same hm _ _))

/-- Settles O59: the command that runs was accepted, and the read meets at most the one older value. -/
theorem writesMustBeVisibleBeforeTheCommand : Obligations.WritesMustBeVisibleBeforeTheCommand := by
  intro i s t x b hm hb hs he ht
  refine ⟨fun h => ?_, fun h => ?_⟩
  · rw [eq_accept_of_exec (s := busWrite x b s) hb ht h]
    exact memRead_accept_busWrite hm hs he _ _ _ b
  · rw [eq_accept_of_exec (s := makeVisible (busWrite x b s)) hb ht h]
    exact memRead_accept_makeVisible hm hs he _ _ _ b

end Visibility

end Sys2Proof.Machine
end

section
/-! SUPPORT. The command word (30_encoding.md R80 to R86): a word is its fields and its byte lanes, so decoding and
encoding are inverse. -/

namespace Sys2Proof.Machine

section WordLayout

/-- R81: `RSV`, `S` and `OP` make up the whole word. -/
theorem append_fields (c : Word) : reservedField c ++ BitVec.ofBool (strategyField c) ++ opField c = c := by
  have hs : BitVec.ofBool (strategyField c) = c.extractLsb' 4 1 := by
    ext j hj
    simp [strategyField, show j = 0 by omega]
  rw [hs, reservedField, opField,
    BitVec.extractLsb'_append_extractLsb'_eq_extractLsb' (show 5 = 4 + 1 from rfl),
    BitVec.extractLsb'_append_extractLsb'_eq_extractLsb' (show 4 = 0 + 4 from rfl)]
  exact BitVec.extractLsb'_eq_self

/-- R67: the four lanes, the lowest last, make up the whole word. -/
theorem append_lanes (c : Word) :
    c.extractLsb' 24 8 ++ c.extractLsb' 16 8 ++ c.extractLsb' 8 8 ++ c.extractLsb' 0 8 = c := by
  rw [BitVec.extractLsb'_append_extractLsb'_eq_extractLsb' (show 24 = 16 + 8 from rfl),
    BitVec.extractLsb'_append_extractLsb'_eq_extractLsb' (show 16 = 8 + 8 from rfl),
    BitVec.extractLsb'_append_extractLsb'_eq_extractLsb' (show 8 = 0 + 8 from rfl)]
  exact BitVec.extractLsb'_eq_self

theorem wordOfTableBits_toNat (c : Word) : wordOfTableBits 32 c.toNat = c := by
  rw [wordOfTableBits, Nat.mod_eq_of_lt c.isLt, BitVec.ofNat_toNat, BitVec.setWidth_eq]

end WordLayout

section Decoding

theorem decodeBytes_lanesOfWord (c : Word) : decodeBytes (lanesOfWord c) = decode c :=
  congrArg decode (append_lanes c)

theorem decodeTableWord_toNat (c : Word) : decodeTableWord 32 c.toNat = (decode c).toOption := by
  have hfits : ¬ 2 ^ 32 ≤ c.toNat % 2 ^ 32 := Nat.not_le.2 (Nat.mod_lt _ (by decide))
  rw [decodeTableWord, if_neg hfits, wordOfTableBits_toNat, decodeBytes_lanesOfWord]

/-- R84: a legal word has no reserved bit set and is decoded by its two other fields. -/
theorem fields_of_decode {c : Word} {i : Instr} (h : decode c = .ok i) :
    reservedField c = 0#27 ∧ strategyField c = strategyOf i ∧ opField c = opcodeOf i := by
  unfold decode at h
  split at h
  next => cases h
  next hreserved =>
    obtain ⟨hop, hs⟩ := commandOf_cases h
    exact ⟨not_not.1 hreserved, hs, hop⟩

/-- R84: the encoder is the decoder's only inverse. -/
theorem decode_eq_ok_iff (c : Word) (i : Instr) : decode c = .ok i ↔ c = encode i := by
  refine ⟨fun h => ?_, fun h => h ▸ decode_encode i⟩
  obtain ⟨hreserved, hs, hop⟩ := fields_of_decode h
  rw [← append_fields c, hreserved, hs, hop, encode]

/-- Settles O3: lanes and fields both make up the word, so the decoder's inverse is the encoder. -/
theorem decodeAndEncodeAgree : Obligations.DecodeAndEncodeAgree := by
  refine ⟨decodeBytes_lanesOfWord, fun c i => ?_, fun i _ => ?_⟩
  · rw [decodeBytes_lanesOfWord, decode_eq_ok_iff]
  · rw [decodeTableWord_toNat, decode_encode]
    rfl

/-- Settles O1: eleven written-out words, by evaluation of the decoder. -/
theorem decoderReadsTheTableWords : Obligations.DecoderReadsTheTableWords := by
  unfold Obligations.DecoderReadsTheTableWords
  decide

end Decoding

section LegalWords

/-- R84: the six words, written out. -/
theorem eq_encode_iff (c : Word) (i : Instr) : c = encode i ↔
    (c = 0x00000001#32 ∧ i = .divs) ∨ (c = 0x00000002#32 ∧ i = .divb) ∨
    (c = 0x00000003#32 ∧ i = .tbuild false) ∨ (c = 0x00000013#32 ∧ i = .tbuild true) ∨
    (c = 0x00000004#32 ∧ i = .teval) ∨ (c = 0x00000005#32 ∧ i = .hweval) := by
  cases i with
  | divs | divb | teval | hweval => simp [encode, strategyOf, opcodeOf]
  | tbuild s => cases s <;> simp [encode, strategyOf, opcodeOf]

/-- R162: an illegal word written to an idle core's `CMD`. -/
theorem presentCommand_illegal {c : Word} {s : State} (hb : s.status.busy = false)
    (hd : ∀ i, decode c ≠ .ok i) :
    presentCommand c s = .next (raise .illegalCmd (beginAcceptance s)) := by
  rcases presentCommand_cases c s with ⟨hrun, -⟩ | ⟨-, -, e⟩ | ⟨-, i, hi, -⟩
  · cases hb.symm.trans hrun
  · exact e
  · exact absurd hi (hd i)

/-- Settles O2: a legal word is an encoding, and any other is refused at acceptance. -/
theorem exactlySixWordsAreLegal : Obligations.ExactlySixWordsAreLegal :=
  ⟨fun c i => (decode_eq_ok_iff c i).trans (eq_encode_iff c i),
    fun _ _ hb hd => ⟨_, presentCommand_illegal hb hd, rfl⟩⟩

end LegalWords

end Sys2Proof.Machine
end

section
/-! SUPPORT. The assembler (30_encoding.md R87): it accepts seven lines and no other, each with one command. -/

namespace Sys2Proof

/-- R87: a well-formed line is one of seven. -/
theorem AsmLine.wellFormed_cases {l : AsmLine} (h : l.wellFormed = true) :
    l = ⟨"DIVS", none⟩ ∨ l = ⟨"DIVB", none⟩ ∨ l = ⟨"TBUILD", none⟩ ∨ l = ⟨"TBUILD", some 0⟩ ∨
    l = ⟨"TBUILD", some 1⟩ ∨ l = ⟨"TEVAL", none⟩ ∨ l = ⟨"HWEVAL", none⟩ := by
  obtain ⟨m, operand⟩ := l
  simp only [AsmLine.wellFormed, AsmLine.mnemonicKnown, AsmLine.operandAllowed, AsmLine.operandInRange,
    Bool.and_eq_true, decide_eq_true_eq] at h
  obtain ⟨⟨hknown, hallowed⟩, hrange⟩ := h
  cases operand with
  | none => simpa using hknown
  | some n =>
    have hm : m = "TBUILD" := by simpa using hallowed
    have hn : n = 0 ∨ n = 1 := by simpa [Nat.le_one_iff_eq_zero_or_eq_one] using hrange
    rcases hn with rfl | rfl <;> simp [hm]

theorem AsmLine.wellFormed_of_assemble {l : AsmLine} {i : Instr} (h : l.assemble = some i) :
    l.wellFormed = true := by
  by_contra hbad
  simp [AsmLine.assemble, hbad] at h

/-- R87: the command of each of the seven lines. -/
theorem AsmLine.assemble_lines :
    AsmLine.assemble ⟨"DIVS", none⟩ = some .divs ∧ AsmLine.assemble ⟨"DIVB", none⟩ = some .divb ∧
    AsmLine.assemble ⟨"TBUILD", none⟩ = some (.tbuild false) ∧
    AsmLine.assemble ⟨"TBUILD", some 0⟩ = some (.tbuild false) ∧
    AsmLine.assemble ⟨"TBUILD", some 1⟩ = some (.tbuild true) ∧
    AsmLine.assemble ⟨"TEVAL", none⟩ = some .teval ∧ AsmLine.assemble ⟨"HWEVAL", none⟩ = some .hweval := by
  decide

/-- Settles O4: an accepted line is well formed, hence one of the seven, and each of these has its one command. -/
theorem assemblerAcceptsExactlySevenLines : Obligations.AssemblerAcceptsExactlySevenLines := by
  intro l i
  constructor
  · intro h
    rcases AsmLine.wellFormed_cases (AsmLine.wellFormed_of_assemble h) with
      rfl | rfl | rfl | rfl | rfl | rfl | rfl <;>
      simpa [AsmLine.assemble_lines, eq_comm] using h
  · rintro (⟨rfl, rfl⟩ | ⟨rfl, rfl⟩ | ⟨rfl, rfl⟩ | ⟨rfl, rfl⟩ | ⟨rfl, rfl⟩ | ⟨rfl, rfl⟩ | ⟨rfl, rfl⟩) <;>
      simp [AsmLine.assemble_lines]

end Sys2Proof
end

section
/-! SUPPORT. One step of a command: everything it can do, what it leaves unchanged (30_encoding.md R83), and that a
running command ends (R89; 70_reset_and_hazards.md R201). -/

namespace Sys2Proof.Machine

section Frame

/-- The next states of `exec i s`, whether or not `i` is the command that `w[OP]` and `w[S]` name. -/
inductive ExecStep (i : Instr) (s : State) : State → Prop
  | busError (hb : s.status.busy = true) (hi : readsMessage i = true) (hk : s.w.k < s.w.len)
      (he : busErrAt s.params s.byteAddr = true) :
      ExecStep i s (raise (.busError s.byteAddr) (s.issueRead s.byteAddr))
  | byte (hb : s.status.busy = true) (acc : Word) : ExecStep i s ((s.issueRead s.byteAddr).advance acc)
  | complete (hb : s.status.busy = true) (hi : readsMessage i = true) (hk : ¬ s.w.k < s.w.len) :
      ExecStep i s (completeResult (finalValue i s) s)
  | entry (hb : s.status.busy = true) (hi : readsMessage i = false) (hk : s.w.k < 256#32) :
      ExecStep i s (tableStep s)
  | built (hb : s.status.busy = true) (hi : readsMessage i = false) : ExecStep i s (completeTable s)
  | accepted (hb : s.status.busy = false) : ExecStep i s (accept i (opcodeOf i == 3#4) (seedOf i s) s)
  | noTable (hb : s.status.busy = false) : ExecStep i s (raise .tableInvalid (beginAcceptance s))

theorem ExecStep.of_exec {i : Instr} {s t : State} (h : exec i s = .next t) : ExecStep i s t := by
  rcases exec_cases i s with ⟨hb, hi, e⟩ | ⟨hb, hi, e⟩ | ⟨hb, -, e⟩ | ⟨hb, -, -, e⟩ <;>
    cases e.symm.trans h
  · by_cases hk : s.w.k < s.w.len
    · rw [messageStep_byte _ _ hk]
      rcases byteStep_cases (byteUpdate i s) s with ⟨he, e⟩ | ⟨-, b, -, e⟩ <;> rw [e]
      · exact .busError hb hi hk he
      · exact .byte hb _
    · rw [messageStep_complete _ _ hk]
      exact .complete hb hi hk
  · by_cases hk : s.w.k < 256#32
    · rw [if_pos hk]
      exact .entry hb hi hk
    · rw [if_neg hk]
      exact .built hb hi
  · exact .accepted hb
  · exact .noTable hb

variable {i : Instr} {s t : State}

/-- R46, R61, R83: what no command changes. -/
theorem ExecStep.frame (h : ExecStep i s t) :
    t.params = s.params ∧ t.ie = s.ie ∧ t.poly = s.poly ∧ t.init = s.init ∧ t.fxor = s.fxor ∧
    t.addr = s.addr ∧ t.len = s.len ∧ t.idx = s.idx ∧ t.mem = s.mem ∧
    t.hostReads = s.hostReads ∧ t.events = s.events ∧ t.status.cmdLost = s.status.cmdLost := by
  cases h <;> exact ⟨rfl, rfl, rfl, rfl, rfl, rfl, rfl, rfl, rfl, rfl, rfl, rfl⟩

/-- R38: only the completion step of a command over the message writes `RESULT`. -/
theorem ExecStep.result_changed (h : ExecStep i s t) (hne : t.result ≠ s.result) :
    s.status.busy = true ∧ readsMessage i = true ∧ ¬ s.w.k < s.w.len := by
  cases h with
  | complete hb hi hk => exact ⟨hb, hi, hk⟩
  | busError | byte | entry | built | accepted | noTable => exact absurd rfl hne

/-- R41: only a failing read writes `FADDR`. -/
theorem ExecStep.faddr_changed (h : ExecStep i s t) (hne : t.faddr ≠ s.faddr) :
    s.status.busy = true ∧ readsMessage i = true ∧ s.w.k < s.w.len ∧
    busErrAt s.params s.byteAddr = true := by
  cases h with
  | busError hb hi hk he => exact ⟨hb, hi, hk, he⟩
  | byte | complete | entry | built | accepted | noTable => exact absurd rfl hne

/-- R42, R122: only an entry step of `TBUILD` writes the table. -/
theorem ExecStep.tbl_changed (h : ExecStep i s t) (hne : t.tbl ≠ s.tbl) :
    s.status.busy = true ∧ readsMessage i = false ∧ s.w.k < 256#32 := by
  cases h with
  | entry hb hi hk => exact ⟨hb, hi, hk⟩
  | busError | byte | complete | built | accepted | noTable => exact absurd rfl hne

/-- R43: only `TBUILD` clears or sets `TVALID`. -/
theorem ExecStep.tvalid_changed (h : ExecStep i s t) (hne : t.status.tvalid ≠ s.status.tvalid) :
    readsMessage i = false := by
  cases h with
  | built _ hi => exact hi
  | accepted _ =>
    by_contra hi
    exact hne (by simp [opcodeOf_ne_three (by simpa using hi)])
  | busError | byte | complete | entry | noTable => exact absurd rfl hne

/-- R44: a running command keeps its snapshot. -/
theorem ExecStep.snapshot_kept (h : ExecStep i s t) (hb : s.status.busy = true) :
    t.w.poly = s.w.poly ∧ t.w.init = s.w.init ∧ t.w.fxor = s.w.fxor ∧ t.w.addr = s.w.addr ∧
    t.w.len = s.w.len ∧ t.w.op = s.w.op ∧ t.w.s = s.w.s := by
  cases h with
  | accepted hidle => cases hb.symm.trans hidle
  | busError | byte | complete | entry | built | noTable => exact ⟨rfl, rfl, rfl, rfl, rfl, rfl, rfl⟩

/-- Settles O13: what holds of each way in which a command steps. -/
theorem commandsChangeOnlyTheirResults : Obligations.CommandsChangeOnlyTheirResults := by
  intro i s t h
  have hstep := ExecStep.of_exec h
  obtain ⟨hparams, hie, hpoly, hinit, hfxor, haddr, hlen, hidx, hmem, hreads, hevents, hlost⟩ := hstep.frame
  exact ⟨hparams, hie, hpoly, hinit, hfxor, haddr, hlen, hidx, fun a => by rw [hmem], hreads, hevents, hlost,
    hstep.result_changed, hstep.faddr_changed, hstep.tbl_changed, hstep.tvalid_changed, hstep.snapshot_kept⟩

end Frame

section Termination

/-- The message bytes or table entries that the running command has still to take. -/
def State.remaining (s : State) : Nat :=
  if s.w.op = 3#4 then 256 - s.w.k.toNat else s.w.len.toNat - s.w.k.toNat

theorem remaining_advance_lt {s : State} (h3 : s.w.op ≠ 3#4) (hk : s.w.k < s.w.len) (acc : Word) :
    (s.advance acc).remaining < s.remaining := by
  simp only [State.remaining, advance_w, h3, if_false]
  bv_omega

theorem remaining_tableStep_lt {s : State} (h3 : s.w.op = 3#4) (hk : s.w.k < 256#32) :
    (tableStep s).remaining < s.remaining := by
  simp only [State.remaining, tableStep_w, h3, if_true]
  bv_omega

/-- R201: an engine step of a running command ends it or takes one of its remaining bytes or entries. -/
theorem Transition.ends_or_shrinks {s t : State} (h : Transition s .engine t) (hb : s.status.busy = true) :
    (t.status.busy = false ∧ t.status.done = true) ∨
    (t.status.busy = true ∧ t.events = s.events ∧ t.remaining < s.remaining) := by
  cases h with
  | idle hidle => cases hb.symm.trans hidle
  | busError | complete | built => exact .inl ⟨rfl, rfl⟩
  | byte _ hc hi hk _ _ =>
    have h3 : s.w.op ≠ 3#4 := (commandOf_cases hc).1 ▸ opcodeOf_ne_three hi
    exact .inr ⟨hb, rfl, remaining_advance_lt (s := s.issueRead s.byteAddr) h3 hk _⟩
  | entry _ hc hk => exact .inr ⟨hb, rfl, remaining_tableStep_lt (commandOf_cases hc).1 hk⟩

/-- With an empty schedule the step of a running command is its engine step. -/
theorem exists_step_of_busy {s : State} (hs : Invariant s) (hb : s.status.busy = true) (hev : s.events = []) :
    ∃ t, step s = .next t ∧ Transition s .engine t := by
  obtain ⟨i, hc⟩ := hs.running hb
  obtain ⟨t, ht⟩ := exec_next i s
  exact ⟨t, ((step_nil hev).trans (engineStep_busy hb hc)).trans ht, .of_running hb hc ht⟩

/-- R89, R201: by induction on what remains, the engine alone ends the running command. -/
theorem exists_run_to_completion {s : State} (hs : Invariant s) (hb : s.status.busy = true)
    (hev : s.events = []) : ∃ n ≤ s.remaining + 1,
    ∃ t : State, runSteps n s = .next t ∧ t.status.busy = false ∧ t.status.done = true := by
  induction hr : s.remaining using Nat.strong_induction_on generalizing s with
  | _ r ih =>
    obtain ⟨t, hstep, htr⟩ := exists_step_of_busy hs hb hev
    rcases htr.ends_or_shrinks hb with hend | ⟨hbt, hevt, hlt⟩
    · exact ⟨1, Nat.le_add_left _ _, t, runSteps_succ hstep, hend⟩
    · obtain ⟨n, hn, u, hrun, hend⟩ :=
        ih t.remaining (hr ▸ hlt) (stepKeepsTheInvariant s t hs hstep) hbt (hevt.trans hev) rfl
      exact ⟨n + 1, by omega, u, (runSteps_succ hstep).trans hrun, hend⟩

/-- Settles O34: the bound of the statement is `State.remaining` and one more. -/
theorem runningCommandEnds : Obligations.RunningCommandEnds :=
  fun _ hs hb hev => exists_run_to_completion hs hb hev

end Termination

end Sys2Proof.Machine
end

section
/-! SUPPORT. The dividers' arithmetic, bit by bit (40_dividers.md R101 to R107, R111). -/

namespace Sys2Proof.Machine

section BitStep

/-- R101: the shift, then the polynomial where bit 31 was set. -/
theorem divStepS_eq_shiftIn_xor (p r : Word) (m : Bool) :
    divStepS p r m = shiftIn r m ^^^ (if r.getLsbD 31 then p else 0#32) := by
  unfold divStepS
  split
  · rfl
  · exact (BitVec.xor_zero).symm

theorem getLsbD_divStepS (p r : Word) (m : Bool) {i : Nat} (hi : i < 32) :
    (divStepS p r m).getLsbD i =
      ((if i = 0 then m else r.getLsbD (i - 1)) ^^ (r.getLsbD 31 && p.getLsbD i)) := by
  rw [divStepS_eq_shiftIn_xor, BitVec.getLsbD_xor, getLsbD_shiftIn r m hi]
  cases r.getLsbD 31 <;> simp

/-- Settles O14: shifting in gives the first part, the polynomial the second. -/
theorem bitSerialStepBits : Obligations.BitSerialStepBits :=
  fun p r m _ hi => getLsbD_divStepS p r m hi

theorem mask32_and (m : Bool) (v : Word) : mask32 m &&& v = if m then v else 0#32 := by
  cases m
  · simp [mask32, zextBit]
  · have hones : mask32 true = BitVec.allOnes 32 := by decide
    rw [hones, BitVec.allOnes_and, if_pos rfl]

/-- R107: the masked XORs of R105 are the shift and the test of R101. -/
theorem divStepB_eq_divStepS (p r : Word) (m : Bool) : divStepB p r m = divStepS p r m := by
  refine BitVec.eq_of_getLsbD_eq fun i hi => ?_
  rw [getLsbD_divStepS p r m hi, divStepB, mask32_and, mask32_and, BitVec.getLsbD_xor, BitVec.getLsbD_xor,
    BitVec.getLsbD_shiftLeft]
  congr 1
  · cases i <;> cases m <;> simp [hi]
  · cases r.getLsbD 31 <;> simp

end BitStep

section Bytes

/-- R102: the bits of a byte in the order in which a divider consumes them. -/
theorem msbFirst_eight (bitStep : Word → Bool → Word) (r : Word) (b : Byte) :
    msbFirst bitStep 8 r b = [b.getLsbD 7, b.getLsbD 6, b.getLsbD 5, b.getLsbD 4, b.getLsbD 3,
      b.getLsbD 2, b.getLsbD 1, b.getLsbD 0].foldl bitStep r := by
  simp [msbFirst]

/-- Settles O15: the byte shifts left, so each step's bit 7 is the next lower bit. -/
theorem byteIsConsumedTopBitFirst : Obligations.ByteIsConsumedTopBitFirst :=
  fun p r b => msbFirst_eight (divStepS p) r b

theorem divByteB_eq_divByteS (p r : Word) (b : Byte) : divByteB p r b = divByteS p r b := by
  have hstep : divStepB p = divStepS p := funext₂ (divStepB_eq_divStepS p)
  rw [divByteB, divByteS, hstep]

theorem divB_eq_divS (msg : List Byte) (p init fxor : Word) : divB msg p init fxor = divS msg p init fxor := by
  have hbyte : divByteB p = divByteS p := funext₂ (divByteB_eq_divByteS p)
  rw [divB, divS, hbyte]

/-- Settles O16: the bit steps are equal, hence the byte steps and the folds over them. -/
theorem dividersAreEquivalent : Obligations.DividersAreEquivalent :=
  ⟨divStepB_eq_divStepS, divByteB_eq_divByteS, divB_eq_divS⟩

end Bytes

section CornerPolynomials

theorem divStepS_zero (r : Word) (m : Bool) : divStepS 0#32 r m = shiftIn r m := by
  rw [divStepS_eq_shiftIn_xor, ite_self, BitVec.xor_zero]

/-- Shifting bits in moves the register up and leaves them below it. -/
theorem msbFirst_shiftIn (k : Nat) (r : Word) (b : Byte) :
    msbFirst shiftIn k r b = (r <<< k) ||| msbFirst shiftIn k 0#32 b := by
  induction k generalizing r b with
  | zero => simp [msbFirst]
  | succ k ih =>
    rw [msbFirst, msbFirst, ih (shiftIn r _), ih (shiftIn 0#32 _)]
    simp [shiftIn, BitVec.shiftLeft_or_distrib, BitVec.or_assoc, ← BitVec.shiftLeft_add, Nat.add_comm]

theorem divByteS_zero (r : Word) (b : Byte) : divByteS 0#32 r b = (r <<< 8) ||| zext32 b := by
  have hstep : divStepS 0#32 = shiftIn := funext₂ divStepS_zero
  rw [divByteS, hstep, msbFirst_shiftIn, msbFirst_shiftIn_byte]

theorem pack_append (bytes : List Byte) (b : Byte) : pack (bytes ++ [b]) = (pack bytes <<< 8) ||| zext32 b := by
  simp [pack]

/-- R111: without a polynomial, the seed moves up by a byte for each message byte. -/
theorem divS_zero (msg : List Byte) (init : Word) :
    divS msg 0#32 init 0#32 = (init <<< (8 * msg.length)) ||| pack msg := by
  rw [divS, BitVec.xor_zero]
  induction msg using List.reverseRecOn with
  | nil => simp [pack]
  | append_singleton msg b ih =>
    rw [List.foldl_concat, ih, divByteS_zero, pack_append, BitVec.shiftLeft_or_distrib, BitVec.or_assoc,
      ← BitVec.shiftLeft_add, List.length_append, List.length_singleton, Nat.mul_succ]

theorem divS_append (msg tail : List Byte) (p init fxor : Word) :
    divS (msg ++ tail) p init fxor = divS tail p (divS msg p init 0#32) fxor := by
  simp [divS]

/-- R111: after four bytes nothing of the seed and of the bytes before them is left. -/
theorem divS_zero_last_four (msg : List Byte) (init : Word) (h : 4 ≤ msg.length) :
    divS msg 0#32 init 0#32 = pack (msg.drop (msg.length - 4)) := by
  have hlast : 8 * (msg.drop (msg.length - 4)).length = 32 := by
    rw [List.length_drop]
    omega
  conv_lhs => rw [← List.take_append_drop (msg.length - 4) msg]
  rw [divS_append, divS_zero (msg.drop _), hlast, BitVec.shiftLeft_eq_zero le_rfl, BitVec.zero_or]

/-- R111: with polynomial 1, bit 31 comes back in at bit 0. -/
theorem divStepS_one (r : Word) (m : Bool) :
    divStepS 1#32 r m = ((r <<< 1) ||| (r >>> 31)) ^^^ zextBit m := by
  refine BitVec.eq_of_getLsbD_eq fun i hi => ?_
  rw [getLsbD_divStepS _ r m hi, BitVec.getLsbD_xor, BitVec.getLsbD_or, BitVec.getLsbD_shiftLeft,
    BitVec.getLsbD_ushiftRight, getLsbD_zextBit]
  cases i with
  | zero => simp [Bool.xor_comm]
  | succ i => simp [hi, BitVec.getLsbD_of_ge r (31 + (i + 1)) (by omega)]

/-- Settles O18: the seed is shifted out by four bytes, and polynomial 1 rotates. -/
theorem cornerPolynomials : Obligations.CornerPolynomials :=
  ⟨divS_zero_last_four, fun msg init _ => divS_zero msg init, divStepS_one⟩

end CornerPolynomials

end Sys2Proof.Machine
end

section
/-! SUPPORT. The divider computes a polynomial remainder over GF(2) (40_dividers.md R109). -/

namespace Sys2Proof.Machine

open Polynomial

section WordPolynomials

theorem ite_xor (a b : Bool) (q : (ZMod 2)[X]) :
    (if (a ^^ b) then q else 0) = (if a then q else 0) + if b then q else 0 := by
  cases a <;> cases b <;> simp [CharTwo.add_self_eq_zero]

theorem wordPoly_zero : wordPoly 0#32 = 0 := by
  simp [wordPoly]

theorem wordPoly_xor (u v : Word) : wordPoly (u ^^^ v) = wordPoly u + wordPoly v := by
  simp only [wordPoly, BitVec.getLsbD_xor, ite_xor, Finset.sum_add_distrib]

theorem degree_wordPoly_lt (v : Word) : (wordPoly v).degree < 32 := by
  refine mem_degreeLT.1 (Submodule.sum_mem _ fun i hi => ?_)
  split
  · exact mem_degreeLT.2 ((degree_X_pow_le i).trans_lt (by exact_mod_cast Finset.mem_range.1 hi))
  · exact Submodule.zero_mem _

theorem generator_monic (p : Word) : (generator p).Monic :=
  monic_X_pow_add (degree_wordPoly_lt p)

theorem degree_generator (p : Word) : (generator p).degree = 32 := by
  rw [generator, degree_add_eq_left_of_degree_lt (by rw [degree_X_pow]; exact degree_wordPoly_lt p), degree_X_pow]
  rfl

end WordPolynomials

section BitStep

/-- Shifting in multiplies by `x` and drops `x^32` where bit 31 was set. -/
theorem wordPoly_shiftIn (r : Word) (m : Bool) :
    wordPoly (shiftIn r m) = wordPoly r * X + (if m then 1 else 0) + if r.getLsbD 31 then X ^ 32 else 0 := by
  have hlow : wordPoly (shiftIn r m) =
      (∑ i ∈ Finset.range 31, if r.getLsbD i then X ^ (i + 1) else 0) + if m then 1 else 0 := by
    have hzero : (shiftIn r m).getLsbD 0 = m := getLsbD_shiftIn r m (by decide)
    simp only [wordPoly, Finset.sum_range_succ' _ 31, hzero, pow_zero]
    refine congrArg (· + _) (Finset.sum_congr rfl fun i hi => ?_)
    rw [getLsbD_shiftIn r m (Nat.succ_lt_succ (Finset.mem_range.1 hi))]
    simp
  have hhigh : wordPoly r * X = (∑ i ∈ Finset.range 31, if r.getLsbD i then X ^ (i + 1) else 0) +
      if r.getLsbD 31 then X ^ 32 else 0 := by
    simp only [wordPoly, Finset.sum_range_succ _ 31, add_mul, Finset.sum_mul, ite_mul, zero_mul, ← pow_succ]
  rw [hlow, hhigh, add_right_comm, add_assoc (Finset.sum _ _), CharTwo.add_self_eq_zero, add_zero]

/-- R109: one bit step adds `G(x)` exactly where the shift overflows. -/
theorem wordPoly_divStepS (p r : Word) (m : Bool) :
    wordPoly (divStepS p r m) =
      wordPoly r * X + (if m then 1 else 0) + if r.getLsbD 31 then generator p else 0 := by
  rw [divStepS_eq_shiftIn_xor, wordPoly_xor, wordPoly_shiftIn, add_assoc]
  congr 1
  split
  · rfl
  · rw [wordPoly_zero, add_zero]

end BitStep

section Residues

/-- The residue class of a polynomial modulo `G(x)`. -/
noncomputable def residue (p : Word) : (ZMod 2)[X] →+* AdjoinRoot (generator p) := AdjoinRoot.mk (generator p)

/-- A word is the remainder of everything in its residue class. -/
theorem wordPoly_eq_of_residue {p v : Word} {q : (ZMod 2)[X]} (h : residue p (wordPoly v) = residue p q) :
    wordPoly v = q %ₘ generator p := by
  have hself : wordPoly v %ₘ generator p = wordPoly v :=
    (modByMonic_eq_self_iff (generator_monic p)).2 (by rw [degree_generator]; exact degree_wordPoly_lt v)
  rw [← hself]
  exact modByMonic_eq_of_dvd_sub (generator_monic p) (AdjoinRoot.mk_eq_mk.1 h)

/-- R109: `x^32 = P(x) mod G(x)`. -/
theorem residue_divStepS (p r : Word) (m : Bool) :
    residue p (wordPoly (divStepS p r m)) = residue p (wordPoly r * X + if m then 1 else 0) := by
  have hzero : residue p (if r.getLsbD 31 then generator p else 0) = 0 := by
    split
    · exact AdjoinRoot.mk_self
    · exact map_zero _
  rw [wordPoly_divStepS, map_add, hzero, add_zero]

/-- What a bit step does to a polynomial before it is reduced. -/
noncomputable def shiftInPoly (q : (ZMod 2)[X]) (m : Bool) : (ZMod 2)[X] := q * X + if m then 1 else 0

theorem residue_foldl_divStepS (p r : Word) (bits : List Bool) :
    residue p (wordPoly (bits.foldl (divStepS p) r)) = residue p (bits.foldl shiftInPoly (wordPoly r)) := by
  induction bits using List.reverseRecOn with
  | nil => rfl
  | append_singleton bits m ih =>
    rw [List.foldl_concat, List.foldl_concat, residue_divStepS, shiftInPoly, map_add, map_mul, ih, ← map_mul,
      ← map_add]

/-- `b(x)`, bit `i` of the byte at `x^i`. -/
noncomputable def bytePoly (b : Byte) : (ZMod 2)[X] :=
  ∑ j ∈ Finset.range 8, if b.getLsbD (7 - j) then X ^ (7 - j) else 0

/-- Eight shifts bring a byte in below a polynomial. -/
theorem foldl_shiftInPoly_byte (q : (ZMod 2)[X]) (b : Byte) :
    [b.getLsbD 7, b.getLsbD 6, b.getLsbD 5, b.getLsbD 4, b.getLsbD 3, b.getLsbD 2, b.getLsbD 1,
      b.getLsbD 0].foldl shiftInPoly q = q * X ^ 8 + bytePoly b := by
  simp only [List.foldl_cons, List.foldl_nil, shiftInPoly, bytePoly, Finset.sum_range_succ,
    Finset.sum_range_zero, ← boole_mul _ (X ^ _ : (ZMod 2)[X])]
  ring

theorem residue_divByteS (p r : Word) (b : Byte) :
    residue p (wordPoly (divByteS p r b)) = residue p (wordPoly r * X ^ 8 + bytePoly b) := by
  rw [divByteS, msbFirst_eight, residue_foldl_divStepS, foldl_shiftInPoly_byte]

end Residues

section Messages

theorem bytePoly_zero : bytePoly 0#8 = 0 := by
  simp [bytePoly]

theorem messageBit_append_left {msg : List Byte} (b : Byte) {j : Nat} (hj : j < 8 * msg.length) :
    messageBit (msg ++ [b]) j = messageBit msg j := by
  rw [messageBit, messageBit, List.getD_append _ _ _ _ (by omega)]

theorem messageBit_append_last (msg : List Byte) (b : Byte) {j : Nat} (hj : j < 8) :
    messageBit (msg ++ [b]) (8 * msg.length + j) = b.getLsbD (7 - j) := by
  have hdiv : (8 * msg.length + j) / 8 = msg.length := by omega
  have hmod : (8 * msg.length + j) % 8 = j := by omega
  rw [messageBit, hdiv, hmod]
  simp

theorem messagePoly_append (msg : List Byte) (b : Byte) :
    messagePoly (msg ++ [b]) = messagePoly msg * X ^ 8 + bytePoly b := by
  have hlen : 8 * (msg ++ [b]).length = 8 * msg.length + 8 := by simp [Nat.mul_succ]
  rw [messagePoly, messagePoly, bytePoly, hlen, Finset.sum_range_add, Finset.sum_mul]
  congr 1
  · refine Finset.sum_congr rfl fun j hj => ?_
    have hj' : j < 8 * msg.length := Finset.mem_range.1 hj
    have hexp : 8 * msg.length + 8 - 1 - j = 8 * msg.length - 1 - j + 8 := by omega
    rw [messageBit_append_left b hj', hexp, pow_add, ite_mul, zero_mul]
  · refine Finset.sum_congr rfl fun j hj => ?_
    have hexp : 8 * msg.length + 8 - 1 - (8 * msg.length + j) = 7 - j := by omega
    rw [messageBit_append_last msg b (Finset.mem_range.1 hj), hexp]

theorem residue_foldl_divByteS (msg : List Byte) (p init : Word) :
    residue p (wordPoly (msg.foldl (divByteS p) init)) =
      residue p (wordPoly init * X ^ (8 * msg.length) + messagePoly msg) := by
  induction msg using List.reverseRecOn with
  | nil => simp [messagePoly]
  | append_singleton msg b ih =>
    rw [List.foldl_concat, residue_divByteS, map_add, map_mul, ih, ← map_mul, ← map_add, messagePoly_append,
      List.length_append, List.length_singleton, Nat.mul_succ, pow_add]
    exact congrArg (residue p) (by ring)

/-- R109: the divider's value. -/
theorem wordPoly_divS (msg : List Byte) (p init fxor : Word) :
    wordPoly (divS msg p init fxor) =
      (wordPoly init * X ^ (8 * msg.length) + messagePoly msg) %ₘ generator p + wordPoly fxor := by
  rw [divS, wordPoly_xor, wordPoly_eq_of_residue (residue_foldl_divByteS msg p init)]

theorem messagePoly_append_four_zeros (msg : List Byte) :
    messagePoly (msg ++ [0#8, 0#8, 0#8, 0#8]) = messagePoly msg * X ^ 32 := by
  have hsplit : msg ++ [0#8, 0#8, 0#8, 0#8] = (((msg ++ [0#8]) ++ [0#8]) ++ [0#8]) ++ [0#8] := by simp
  rw [hsplit]
  simp only [messagePoly_append, bytePoly_zero, add_zero]
  ring

/-- Settles O17: a word is the remainder of its residue class, and a step or a byte moves the class as R109 says. -/
theorem dividerIsPolynomialRemainder : Obligations.DividerIsPolynomialRemainder := by
  refine ⟨wordPoly_divS, fun p r m => wordPoly_eq_of_residue (residue_divStepS p r m), fun msg p => ?_⟩
  rw [wordPoly_divS, wordPoly_zero, zero_mul, zero_add, add_zero, messagePoly_append_four_zeros]

end Messages

end Sys2Proof.Machine
end

section
/-! SUPPORT. A command over the message, alone from its acceptance to its completion (40_dividers.md R104, R106, R108,
R110; 60_exceptions.md R161, R164). -/

namespace Sys2Proof.Machine

section MessageByte

variable {i : Instr} {s : State}

theorem issueRead_not_racing {a : Word} (h : s.raceValues a = []) :
    s.issueRead a = { s with msgReads := a :: s.msgReads } := by
  rw [State.issueRead, if_pos h]

/-- One engine step over a byte whose read neither fails nor races, with the whole next state. -/
theorem exec_byte (hi : readsMessage i = true) (hb : s.status.busy = true) (hk : s.w.k < s.w.len)
    (he : busErrAt s.params s.byteAddr = false) (hr : s.raceValues s.byteAddr = []) :
    exec i s = .next { s with
      w := { s.w with
        acc := byteUpdate i s s.w.acc (s.mem.read s.byteAddr.toNat)
        k := s.w.k + 1#32 }
      msgReads := s.byteAddr :: s.msgReads } := by
  rw [exec_busy hi hb, messageStep_byte _ _ hk, byteStep_content _ he hr, issueRead_not_racing hr, State.advance]

/-- Settles O9: the four commands differ in `byteUpdate` alone. -/
theorem messageByteUpdatesTheAccumulator : Obligations.MessageByteUpdatesTheAccumulator := by
  intro s hb hk he hr
  exact ⟨exec_byte (i := .divs) rfl hb hk he hr, exec_byte (i := .divb) rfl hb hk he hr,
    exec_byte (i := .teval) rfl hb hk he hr, exec_byte (i := .hweval) rfl hb hk he hr⟩

end MessageByte

section WholeRun

/-- The state in which command `i`, accepted in `s` and alone since, has consumed `k` bytes of the message. -/
def afterBytes (i : Instr) (s : State) (k : Nat) : State :=
  { accept i (opcodeOf i == 3#4) (seedOf i s) s with
    w := { snapshot i (accumulatorAfter i s k) s with k := BitVec.ofNat 32 k }
    msgReads := readAddresses s.addr k ++ s.msgReads }

theorem afterBytes_zero (i : Instr) (s : State) :
    afterBytes i s 0 = accept i (opcodeOf i == 3#4) (seedOf i s) s := rfl

variable {i : Instr} {s : State}

theorem afterBytes_index_lt_iff {k : Nat} (hk : k ≤ s.len.toNat) :
    (afterBytes i s k).w.k < (afterBytes i s k).w.len ↔ k < s.len.toNat := by
  simp only [afterBytes, snapshot_len]
  bv_omega

theorem byteUpdate_afterBytes (i : Instr) (s : State) (k : Nat) :
    byteUpdate i (afterBytes i s k) = byteUpdate i { s with w := snapshot i (seedOf i s) s } :=
  byteUpdate_congr i rfl rfl rfl

/-- The engine step over byte `k` of a readable message that no one changes. -/
theorem exec_afterBytes (hi : readsMessage i = true) (hread : s.messageReadable) (hs : s.settled) {k : Nat}
    (hk : k < s.len.toNat) : exec i (afterBytes i s k) = .next (afterBytes i s (k + 1)) := by
  have hrace : (afterBytes i s k).raceValues (afterBytes i s k).byteAddr = [] :=
    raceValues_settled (s := afterBytes i s k) rfl hs _
  rw [exec_byte hi rfl ((afterBytes_index_lt_iff hk.le).2 hk) (hread k hk) hrace, byteUpdate_afterBytes]
  simp only [afterBytes, accumulatorAfter_succ, readAddresses_succ, BitVec.ofNat_add, List.cons_append]
  rfl

/-- The completion step, where every byte is consumed. -/
theorem exec_afterBytes_length (hi : readsMessage i = true) :
    exec i (afterBytes i s s.len.toNat) =
      .next (completeResult (commandValue i s) (afterBytes i s s.len.toNat)) := by
  have hdone : ¬ (afterBytes i s s.len.toNat).w.k < (afterBytes i s s.len.toNat).w.len :=
    fun h => Nat.lt_irrefl _ ((afterBytes_index_lt_iff le_rfl).1 h)
  rw [exec_busy hi rfl, messageStep_complete _ _ hdone, finalValue_eq_commandValue hi rfl rfl]

/-- By induction on the number `n` of bytes left. -/
theorem runCommand_afterBytes (hi : readsMessage i = true) (hread : s.messageReadable) (hs : s.settled)
    {n k : Nat} (hk : k + n = s.len.toNat) :
    runCommand i (n + 1) (afterBytes i s k) =
      .next (completeResult (commandValue i s) (afterBytes i s s.len.toNat)) := by
  induction n generalizing k with
  | zero =>
    obtain rfl : k = s.len.toNat := hk
    rw [runCommand_succ (exec_afterBytes_length hi), runCommand_zero]
  | succ n ih => rw [runCommand_succ (exec_afterBytes hi hread hs (by omega)), ih (by omega)]

/-- Any command over the message completes with its own value: acceptance, then `w[LEN] + 1` engine steps. -/
theorem completesWith_commandValue (hi : readsMessage i = true) (hb : s.status.busy = false)
    (ht : i = .teval → s.status.tvalid = true) (hread : s.messageReadable) (hs : s.settled) :
    CompletesWith i s (commandValue i s) := by
  refine ⟨completeResult (commandValue i s) (afterBytes i s s.len.toNat), ?_, ?_⟩
  · rw [runCommand_succ (exec_idle hb ht), ← afterBytes_zero, runCommand_afterBytes hi hread hs (Nat.zero_add _)]
  · simp [completeResult, afterBytes, accept, Status.started, Status.finished, Status.accepting,
      opcodeOf_ne_three hi]

theorem CompletesWith.exists_run {v : Word} (h : CompletesWith i s v) :
    ∃ t, runCommand i (s.len.toNat + 2) s = .next t ∧ t.result = v := by
  obtain ⟨t, hrun, ht⟩ := h
  exact ⟨t, hrun, by rw [ht]⟩

end WholeRun

section Dividers

variable {i : Instr} {s : State}

theorem divider_completes (hi : i = .divs ∨ i = .divb) (hb : s.status.busy = false)
    (hread : s.messageReadable) (hs : s.settled) : CompletesWith i s (commandValue i s) := by
  rcases hi with rfl | rfl <;> exact completesWith_commandValue rfl hb nofun hread hs

/-- Settles O24: the value of `DIVS` and of `DIVB` is its divider over the message. -/
theorem dividersComputeTheMessage : Obligations.DividersComputeTheMessage :=
  fun _ hb hread hs => ⟨divider_completes (.inl rfl) hb hread hs, divider_completes (.inr rfl) hb hread hs⟩

/-- R110: what a divider command returns is a function of the snapshot and the message. -/
theorem commandValue_divider_congr {s' : State} (hi : i = .divs ∨ i = .divb) (hpoly : s.poly = s'.poly)
    (hinit : s.init = s'.init) (hfxor : s.fxor = s'.fxor) (hmsg : s.message = s'.message) :
    commandValue i s = commandValue i s' := by
  rcases hi with rfl | rfl <;> simp only [commandValue, hpoly, hinit, hfxor, hmsg]

/-- Settles O32: both runs complete with the divider's value, of equal operands and messages. -/
theorem dividerResultHasNoHiddenState : Obligations.DividerResultHasNoHiddenState := by
  intro i s s' hi hb hb' hread hread' hs hs' hpoly hinit hfxor _ hmsg
  obtain ⟨t, hrun, ht⟩ := (divider_completes hi hb hread hs).exists_run
  obtain ⟨t', hrun', ht'⟩ := (divider_completes hi hb' hread' hs').exists_run
  exact ⟨t, t', hrun, hrun', by rw [ht, ht', commandValue_divider_congr hi hpoly hinit hfxor hmsg]⟩

theorem message_of_len_zero (hlen : s.len = 0#32) : s.message = [] := by
  simp [State.message, messageBytes, hlen]

theorem commandValue_of_len_zero (hi : i = .divs ∨ i = .divb) (hlen : s.len = 0#32) :
    commandValue i s = s.init ^^^ s.fxor := by
  rcases hi with rfl | rfl <;> rw [commandValue, message_of_len_zero hlen] <;> rfl

/-- R108: with `LEN = 0` the step after acceptance is the completion, whatever races or fails elsewhere. -/
theorem runCommand_of_len_zero (hi : i = .divs ∨ i = .divb) (hb : s.status.busy = false)
    (hlen : s.len = 0#32) :
    runCommand i 2 s = .next (completeResult (s.init ^^^ s.fxor) (afterBytes i s 0)) := by
  have hreads : readsMessage i = true := by rcases hi with rfl | rfl <;> rfl
  have ht : i = .teval → s.status.tvalid = true := by rcases hi with rfl | rfl <;> nofun
  have hcomplete : exec i (afterBytes i s 0) =
      .next (completeResult (s.init ^^^ s.fxor) (afterBytes i s 0)) := by
    simpa [hlen, commandValue_of_len_zero hi hlen] using exec_afterBytes_length (s := s) hreads
  rw [runCommand_succ (exec_idle hb ht), ← afterBytes_zero, runCommand_succ hcomplete, runCommand_zero]

/-- Settles O29: a fold over nothing is its seed, and the command's second step is its completion. -/
theorem emptyMessage : Obligations.EmptyMessage :=
  ⟨fun _ _ _ => ⟨rfl, rfl⟩,
    fun _ _ hi hb hlen => ⟨_, runCommand_of_len_zero hi hb hlen, rfl, rfl, rfl, rfl, rfl⟩⟩

end Dividers

end Sys2Proof.Machine
end

section
/-! SUPPORT. The table of a build is the identity, so the byte update over it is the divider's with polynomial 1
(41_table.md R123, R128, R129). -/

namespace Sys2Proof.Machine

section Identity

theorem tblGet_buildTable_eq_byte (strategy : Bool) (p : Word) (i : Byte) :
    tblGet (buildTable strategy p) i = zext32 i :=
  (tblGet_buildTable strategy p i).trans (tableEntry_eq_byte strategy p i)

/-- Settles O19: eight bits from 0 never reach bit 31, so no divider applies its polynomial. -/
theorem builtTableIsTheIdentity : Obligations.BuiltTableIsTheIdentity :=
  fun strategy p i => ⟨tableEntry_eq_byte strategy p i, tblGet_buildTable_eq_byte strategy p i⟩

end Identity

section Rotation

theorem getLsbD_zext32 (b : Byte) {i : Nat} (hi : i < 32) : (zext32 b).getLsbD i = b.getLsbD i := by
  simp [zext32, hi]

/-- R128, bit by bit: the top byte comes back in at the bottom, where the message byte meets it. -/
theorem getLsbD_rotate_xor (r : Word) (b : Byte) {i : Nat} (hi : i < 32) :
    (((r <<< 8) ||| (r >>> 24)) ^^^ zext32 b).getLsbD i =
      if i < 8 then (r.getLsbD (24 + i) ^^ b.getLsbD i) else r.getLsbD (i - 8) := by
  rw [BitVec.getLsbD_xor, BitVec.getLsbD_or, BitVec.getLsbD_shiftLeft, BitVec.getLsbD_ushiftRight,
    getLsbD_zext32 b hi]
  by_cases hlow : i < 8
  · simp [hlow]
  · simp [hlow, hi, BitVec.getLsbD_of_ge r (24 + i) (by omega), BitVec.getLsbD_of_ge b i (by omega)]

/-- R128: the entry that the update looks up is its own index. -/
theorem tblByte_buildTable (strategy : Bool) (p r : Word) (b : Byte) :
    tblByte (buildTable strategy p) r b = ((r <<< 8) ||| (r >>> 24)) ^^^ zext32 b := by
  refine BitVec.eq_of_getLsbD_eq fun i hi => ?_
  rw [getLsbD_rotate_xor r b hi, tblByte, tblGet_buildTable_eq_byte, BitVec.getLsbD_xor,
    BitVec.getLsbD_shiftLeft, getLsbD_zext32 _ hi, BitVec.getLsbD_xor, BitVec.getLsbD_extractLsb']
  by_cases hlow : i < 8
  · simp [hlow, Bool.xor_comm]
  · simp [hlow, hi, BitVec.getLsbD_of_ge b i (by omega)]

theorem getLsbD_divStepS_one (r : Word) (m : Bool) {i : Nat} (hi : i < 32) :
    (divStepS 1#32 r m).getLsbD i = if i = 0 then (r.getLsbD 31 ^^ m) else r.getLsbD (i - 1) := by
  rw [getLsbD_divStepS _ r m hi]
  cases i <;> simp [Bool.xor_comm, BitVec.getLsbD_one]

/-- The divider with polynomial 1 after `k` bits of a byte. -/
theorem getLsbD_msbFirst_one {k : Nat} (hk : k ≤ 8) (r : Word) (b : Byte) {i : Nat} (hi : i < 32) :
    (msbFirst (divStepS 1#32) k r b).getLsbD i =
      if i < k then (r.getLsbD (32 - k + i) ^^ b.getLsbD (8 - k + i)) else r.getLsbD (i - k) := by
  induction k generalizing r b with
  | zero => simp [msbFirst]
  | succ k ih =>
    rw [msbFirst, ih (by omega)]
    rcases Nat.lt_trichotomy i k with h | rfl | h
    · have hr : 32 - k + i = 32 - (k + 1) + i + 1 := by omega
      have hb : 8 - k + i = 8 - (k + 1) + i + 1 := by omega
      rw [if_pos h, if_pos (by omega), hr, hb, getLsbD_divStepS_one _ _ (by omega), if_neg (Nat.succ_ne_zero _),
        BitVec.getLsbD_shiftLeft, decide_eq_true (by omega), decide_eq_false (by omega)]
      rfl
    · have hr : 32 - (i + 1) + i = 31 := by omega
      have hb : 8 - (i + 1) + i = 7 := by omega
      rw [if_neg (by omega), if_pos (by omega), getLsbD_divStepS_one _ _ (by omega), if_pos (by omega), hr, hb]
    · rw [if_neg (by omega), if_neg (by omega), getLsbD_divStepS_one _ _ (by omega), if_neg (by omega),
        Nat.sub_sub]

/-- R129: with polynomial 1 the divider's byte step is the rotation of R128. -/
theorem divByteS_one (r : Word) (b : Byte) :
    divByteS 1#32 r b = ((r <<< 8) ||| (r >>> 24)) ^^^ zext32 b := by
  refine BitVec.eq_of_getLsbD_eq fun i hi => ?_
  rw [getLsbD_rotate_xor r b hi, divByteS, getLsbD_msbFirst_one le_rfl r b hi, Nat.sub_self, Nat.zero_add]

/-- Whatever polynomial the table was built with, the evaluator over it divides by that of polynomial 1. -/
theorem tblEval_buildTable (strategy : Bool) (p : Word) (msg : List Byte) :
    tblEval (buildTable strategy p) msg = divS msg 1#32 0#32 0#32 := by
  have hbyte : tblByte (buildTable strategy p) = divByteS 1#32 :=
    funext₂ fun r b => (tblByte_buildTable strategy p r b).trans (divByteS_one r b).symm
  rw [tblEval, hbyte, divS, BitVec.xor_zero]

/-- Settles O20: the entry is its index, and the evaluator over a built table does not see the build. -/
theorem tableByteRotates : Obligations.TableByteRotates :=
  ⟨tblByte_buildTable, fun strategy strategy' p p' msg =>
    (tblEval_buildTable strategy p msg).trans (tblEval_buildTable strategy' p' msg).symm⟩

end Rotation

section Consistency

/-- `n` packed bytes use `8 * n` bits. -/
theorem getLsbD_pack_of_ge (msg : List Byte) {i : Nat} (hi : 8 * msg.length ≤ i) :
    (pack msg).getLsbD i = false := by
  induction msg using List.reverseRecOn generalizing i with
  | nil => simp [pack]
  | append_singleton msg b ih =>
    rw [List.length_append, List.length_singleton] at hi
    rw [pack_append, BitVec.getLsbD_or, BitVec.getLsbD_shiftLeft, ih (by omega), zext32, BitVec.getLsbD_setWidth,
      BitVec.getLsbD_of_ge b i (by omega)]
    simp

/-- A byte step of the divider from a register that uses 24 bits applies no polynomial. -/
theorem divByteS_of_top_byte_clear (p : Word) {r : Word} (hr : ∀ i, 24 ≤ i → r.getLsbD i = false) (b : Byte) :
    divByteS p r b = (r <<< 8) ||| zext32 b := by
  have hstep : ∀ q : Word, divByteS q r b = msbFirst shiftIn 8 r b := fun q =>
    msbFirst_eq_shiftIn (fun _ h => divStepS_of_top_clear q h) b hr (by decide)
  rw [hstep p, ← hstep 0#32, divByteS_zero]

/-- R129: over at most four bytes the divider only packs them. -/
theorem divS_of_length_le_four (msg : List Byte) (p : Word) (h : msg.length ≤ 4) :
    divS msg p 0#32 0#32 = pack msg := by
  induction msg using List.reverseRecOn with
  | nil => simp [divS, pack]
  | append_singleton msg b ih =>
    rw [List.length_append, List.length_singleton] at h
    have hbyte : divS (msg ++ [b]) p 0#32 0#32 = divByteS p (divS msg p 0#32 0#32) b := by simp [divS]
    rw [hbyte, ih (by omega), pack_append,
      divByteS_of_top_byte_clear p (fun i hi => getLsbD_pack_of_ge msg (by omega))]

/-- Settles O21: the evaluator over a built table is the divider with polynomial 1, which the four values tell from
the divider with the polynomial of the build. -/
theorem tableConsistencyHoldsInPart : Obligations.TableConsistencyHoldsInPart := by
  refine ⟨fun strategy p msg h => ⟨?_, divS_of_length_le_four msg p h⟩, divByteS_one,
    fun strategy msg => tblEval_buildTable strategy 1#32 msg, fun strategy => ⟨?_, ?_⟩, ?_, ?_⟩
  · rw [tblEval_buildTable, divS_of_length_le_four msg 1#32 h]
  · rw [tblEval_buildTable]
    decide +kernel
  · rw [tblEval_buildTable]
    decide +kernel
  · decide +kernel
  · decide +kernel

end Consistency

end Sys2Proof.Machine
end

section
/-! SUPPORT. `TBUILD`, one entry step and the whole run from an idle core (41_table.md R121 to R123; 10_state.md R43;
60_exceptions.md R161, R164). -/

namespace Sys2Proof.Machine

section EntryStep

theorem tblGet_tableStep (s : State) (j : Byte) :
    tblGet (tableStep s).tbl j = if j = s.w.k.setWidth 8 then zext32 j else tblGet s.tbl j := by
  rw [tableStep_tbl, tblGet_tblSet, tableEntry_eq_byte]
  split
  next hj => rw [hj]
  next => rfl

/-- Settles O10: the step of `TBUILD` before its 256th index is `tableStep`. -/
theorem tableStepWritesOneEntry : Obligations.TableStepWritesOneEntry := by
  intro s strategy hb hk
  exact ⟨tableStep s, by rw [exec_busy_tbuild hb, if_pos hk], tblGet_tableStep s, rfl⟩

end EntryStep

section WholeBuild

/-- State `t` is the running state `s` after `k` entry steps of its `TBUILD`, which began at entry 0. -/
structure EntriesBuilt (s : State) (k : Nat) (t : State) : Prop where
  frame : t = { s with tbl := t.tbl, w := t.w }
  index : t.w.k = BitVec.ofNat 32 k
  entries : ∀ j : Byte, j.toNat < k → tblGet t.tbl j = zext32 j

variable {s t : State} {k : Nat}

theorem EntriesBuilt.busy (h : EntriesBuilt s k t) (hb : s.status.busy = true) : t.status.busy = true := by
  rw [h.frame]
  exact hb

theorem entriesBuilt_zero (hk : s.w.k = 0#32) : EntriesBuilt s 0 s :=
  ⟨rfl, hk, fun _ hj => absurd hj (Nat.not_lt_zero _)⟩

theorem EntriesBuilt.tableStep (h : EntriesBuilt s k t) (hk : k < 256) :
    EntriesBuilt s (k + 1) (Machine.tableStep t) where
  frame := by
    rw [h.frame]
    rfl
  index := by rw [tableStep_w, h.index, BitVec.ofNat_add]
  entries j hj := by
    rw [tblGet_tableStep, h.index]
    split
    next => rfl
    next hold =>
      have hne : j.toNat ≠ k := fun e => hold (by bv_omega)
      exact h.entries j (by omega)

/-- The rest of the build, by induction on the number `n` of entries left. -/
theorem EntriesBuilt.run (h : EntriesBuilt s k t) (hb : s.status.busy = true) (strategy : Bool) {n : Nat}
    (hk : k + n = 256) :
    ∃ u, EntriesBuilt s 256 u ∧ runCommand (.tbuild strategy) (n + 1) t = .next (completeTable u) := by
  induction n generalizing k t with
  | zero =>
    obtain rfl : k = 256 := hk
    have hdone : ¬ t.w.k < 256#32 := by
      rw [h.index]
      decide
    refine ⟨t, h, ?_⟩
    rw [runCommand_succ (exec_busy_tbuild (h.busy hb)), if_neg hdone, runCommand_zero]
  | succ n ih =>
    have hmore : t.w.k < 256#32 := by
      rw [h.index]
      bv_omega
    obtain ⟨u, hu, hrun⟩ := ih (h.tableStep (by omega)) (by omega)
    refine ⟨u, hu, ?_⟩
    rw [runCommand_succ (exec_busy_tbuild (h.busy hb)), if_pos hmore, hrun]

/-- Settles O27: acceptance, 256 entry steps and the completion, which sets `TVALID`. -/
theorem tbuildBuildsTheIdentityTable : Obligations.TbuildBuildsTheIdentityTable := by
  intro s strategy hb
  have haccept := exec_idle (i := .tbuild strategy) hb nofun
  obtain ⟨u, hu, hrun⟩ := (entriesBuilt_zero (s := accept (.tbuild strategy) true s.w.acc s) rfl).run
    (n := 256) rfl strategy rfl
  refine ⟨completeTable u, (runCommand_succ haccept).trans hrun, fun j => hu.entries j j.isLt, ?_⟩
  rw [hu.frame]
  rfl

end WholeBuild

end Sys2Proof.Machine
end

section
/-! SUPPORT. `TEVAL`, alone from an idle core: its value, and that it does not see `POLY`, `INIT` and `FXOR`
(41_table.md R125 to R127, R130). -/

namespace Sys2Proof.Machine

section Value

/-- Settles O25: the run of any command over the message, at the value of `TEVAL`. -/
theorem tevalComputesTheMessage : Obligations.TevalComputesTheMessage :=
  fun _ hb ht hread hs => completesWith_commandValue (i := .teval) rfl hb (fun _ => ht) hread hs

end Value

section Noninterference

/-- The state with the operands that `TEVAL` ignores, and their snapshots, set to 0. -/
def State.withoutSeeds (s : State) : State :=
  { s with
    poly := 0#32
    init := 0#32
    fxor := 0#32
    w := { s.w with poly := 0#32, init := 0#32, fxor := 0#32 } }

theorem memRead_withoutSeeds (s : State) (a : Word) : s.withoutSeeds.memRead a = s.memRead a := rfl

theorem byteStep_withoutSeeds (f : Word → Byte → Word) (s : State) :
    byteStep f s.withoutSeeds = (byteStep f s).withoutSeeds := by
  have hread : s.withoutSeeds.memRead s.withoutSeeds.byteAddr = s.memRead s.byteAddr :=
    memRead_withoutSeeds s s.byteAddr
  rw [byteStep, byteStep, hread]
  cases s.memRead s.byteAddr with
  | byte b => rfl
  | busError => rfl

theorem messageStep_withoutSeeds (f : Word → Byte → Word) (v : Word) (s : State) :
    messageStep f v s.withoutSeeds = (messageStep f v s).withoutSeeds := by
  by_cases hk : s.w.k < s.w.len
  · rw [messageStep_byte f v hk, messageStep_byte f v (s := s.withoutSeeds) hk, byteStep_withoutSeeds]
  · rw [messageStep_complete f v hk, messageStep_complete f v (s := s.withoutSeeds) hk]
    rfl

/-- A step of `TEVAL` commutes with clearing the operands that it ignores. -/
theorem exec_teval_withoutSeeds {s t : State} (h : exec .teval s = .next t) :
    exec .teval s.withoutSeeds = .next t.withoutSeeds := by
  rcases exec_cases .teval s with ⟨hb, hi, e⟩ | ⟨-, hi, -⟩ | ⟨hb, ht, e⟩ | ⟨hb, -, ht, e⟩
  · cases e.symm.trans h
    rw [exec_busy (s := s.withoutSeeds) hi hb, ← messageStep_withoutSeeds]
    rfl
  · cases hi
  · cases e.symm.trans h
    exact exec_idle (s := s.withoutSeeds) hb ht
  · cases e.symm.trans h
    exact exec_idle_teval_invalid (s := s.withoutSeeds) hb ht

theorem runCommand_teval_withoutSeeds {n : Nat} {s t : State} (h : runCommand .teval n s = .next t) :
    runCommand .teval n s.withoutSeeds = .next t.withoutSeeds := by
  induction n generalizing s with
  | zero =>
    cases h
    rfl
  | succ n ih =>
    obtain ⟨u, hu⟩ := exec_next .teval s
    rw [runCommand_succ hu] at h
    rw [runCommand_succ (exec_teval_withoutSeeds hu), ih h]

theorem runCommand_next (i : Instr) (n : Nat) (s : State) : ∃ t, runCommand i n s = .next t := by
  induction n generalizing s with
  | zero => exact ⟨s, rfl⟩
  | succ n ih =>
    obtain ⟨u, hu⟩ := exec_next i s
    rw [runCommand_succ hu]
    exact ih u

/-- Starting states that are the same without the ignored operands reach such states. -/
theorem runCommand_teval_of_withoutSeeds_eq {n : Nat} {s s' t : State} (hs : s'.withoutSeeds = s.withoutSeeds)
    (ht : runCommand .teval n s = .next t) :
    ∃ u, runCommand .teval n s' = .next u ∧ u.withoutSeeds = t.withoutSeeds := by
  obtain ⟨u, hu⟩ := runCommand_next .teval n s'
  have hrun := runCommand_teval_withoutSeeds hu
  rw [hs, runCommand_teval_withoutSeeds ht] at hrun
  exact ⟨u, hu, (Host.Outcome.next.inj hrun).symm⟩

/-- Settles O33: what the two runs are compared in is kept where the ignored operands are cleared. -/
theorem tevalIgnoresSeedMaskAndPolynomial : Obligations.TevalIgnoresSeedMaskAndPolynomial := by
  intro s t poly init fxor n _ ht
  obtain ⟨u, hu, hsame⟩ := runCommand_teval_of_withoutSeeds_eq
    (s := s) (s' := { s with poly := poly, init := init, fxor := fxor }) rfl ht
  exact ⟨u, hu, (congrArg State.result hsame :), (congrArg State.status hsame :),
    (congrArg State.faddr hsame :), (congrArg State.msgReads hsame :)⟩

end Noninterference

end Sys2Proof.Machine
end

section
/-! SUPPORT. The fixed-polynomial byte update: reflected, it is the divider's bit step in a mirrored register
(42_hw_eval.md R142). -/

namespace Sys2Proof.Machine

section ReflectedUpdate

/-- R142: a bit step of the reflected update, over the reversed polynomial `rp`. -/
def lsbStep (rp x : Word) : Word := (x >>> 1) ^^^ (if x.getLsbD 0 then rp else 0#32)

theorem lsbFirst_eq_iterate (rp : Word) (n : Nat) (r : Word) : lsbFirst rp n r = (lsbStep rp)^[n] r := by
  induction n generalizing r with
  | zero => rfl
  | succ n ih => rw [lsbFirst, ih, mask32_and, Function.iterate_succ_apply, lsbStep]

theorem hwByte_unreflected (p : Word) : hwByte p false = divByteS p := rfl

theorem hwByte_reflected (p r : Word) (b : Byte) :
    hwByte p true r b = (lsbStep (bitrev32 p))^[8] (r ^^^ zext32 b) := by
  rw [hwByte, if_pos rfl, lsbFirst_eq_iterate]

theorem getLsbD_bitrev32 (v : Word) {i : Nat} (hi : i < 32) : (bitrev32 v).getLsbD i = v.getLsbD (31 - i) := by
  rw [bitrev32, BitVec.getLsbD_reverse, BitVec.getMsbD_eq_getLsbD, decide_eq_true hi, Bool.true_and]

/-- Settles O22: the masked XOR is the test on bit 0, and the reversal is `BitVec.reverse`. -/
theorem fixedPolynomialUpdate : Obligations.FixedPolynomialUpdate :=
  ⟨fun p _ _ => by rw [hwByte_unreflected p], hwByte_reflected, fun v _ hi => getLsbD_bitrev32 v hi,
    by decide +kernel⟩

end ReflectedUpdate

section MirroredRegister

theorem bitrev32_bitrev32 (v : Word) : bitrev32 (bitrev32 v) = v := BitVec.reverse_reverse_eq

theorem bitrev32_zero : bitrev32 0#32 = 0#32 := by
  refine BitVec.eq_of_getLsbD_eq fun i hi => ?_
  rw [getLsbD_bitrev32 _ hi, BitVec.getLsbD_zero, BitVec.getLsbD_zero]

theorem bitrev32_xor (u v : Word) : bitrev32 (u ^^^ v) = bitrev32 u ^^^ bitrev32 v := by
  refine BitVec.eq_of_getLsbD_eq fun i hi => ?_
  rw [BitVec.getLsbD_xor, getLsbD_bitrev32 _ hi, getLsbD_bitrev32 _ hi, getLsbD_bitrev32 _ hi, BitVec.getLsbD_xor]

/-- In the mirror, a shift right is a shift left and bit 0 is bit 31: the divider's bit step over a 0. -/
theorem bitrev32_lsbStep (p x : Word) : bitrev32 (lsbStep (bitrev32 p) x) = divStepS p (bitrev32 x) false := by
  have hshift : bitrev32 (x >>> 1) = shiftIn (bitrev32 x) false := by
    refine BitVec.eq_of_getLsbD_eq fun i hi => ?_
    rw [getLsbD_bitrev32 _ hi, BitVec.getLsbD_ushiftRight, getLsbD_shiftIn _ _ hi]
    cases i with
    | zero => exact BitVec.getLsbD_of_ge x _ le_rfl
    | succ i =>
      rw [if_neg i.succ_ne_zero, getLsbD_bitrev32 _ (by omega)]
      congr 1
      omega
  have htest : (bitrev32 x).getLsbD 31 = x.getLsbD 0 := getLsbD_bitrev32 x (by decide)
  rw [lsbStep, bitrev32_xor, hshift, divStepS_eq_shiftIn_xor, htest]
  cases x.getLsbD 0 with
  | true => exact congrArg _ (bitrev32_bitrev32 p)
  | false => exact congrArg _ bitrev32_zero

theorem bitrev32_iterate_lsbStep (p x : Word) (n : Nat) :
    bitrev32 ((lsbStep (bitrev32 p))^[n] x) = (List.replicate n false).foldl (divStepS p) (bitrev32 x) := by
  induction n generalizing x with
  | zero => rfl
  | succ n ih => rw [Function.iterate_succ_apply, ih, bitrev32_lsbStep, List.replicate_succ, List.foldl_cons]

end MirroredRegister

end Sys2Proof.Machine
end

section
/-! SUPPORT. The reflected evaluator over GF(2) (42_hw_eval.md R145). -/

namespace Sys2Proof.Machine

open Polynomial

section MirroredResidues

theorem foldl_shiftInPoly_zeros (q : (ZMod 2)[X]) (n : Nat) :
    (List.replicate n false).foldl shiftInPoly q = q * X ^ n := by
  induction n generalizing q with
  | zero => simp
  | succ n ih => simp [List.replicate_succ, shiftInPoly, ih, pow_succ', mul_assoc]

/-- A mirrored byte stands at the top of the register, its bit 0 at bit 31. -/
theorem wordPoly_bitrev32_zext32 (b : Byte) : wordPoly (bitrev32 (zext32 b)) = bytePoly b.reverse * X ^ 24 := by
  have hmirror : wordPoly (bitrev32 (zext32 b)) =
      ∑ j ∈ Finset.range 32, if b.getLsbD j then (X : (ZMod 2)[X]) ^ (31 - j) else 0 := by
    rw [wordPoly, ← Finset.sum_range_reflect]
    refine Finset.sum_congr rfl fun j hj => ?_
    have hj' : j < 32 := Finset.mem_range.1 hj
    rw [getLsbD_bitrev32 _ (by omega), getLsbD_zext32 _ (by omega)]
    congr 3
    omega
  have hhigh : ∀ j, b.getLsbD (8 + j) = false := fun j => BitVec.getLsbD_of_ge b _ (by omega)
  rw [hmirror, Finset.sum_range_add _ 8 24]
  simp only [hhigh, Bool.false_eq_true, if_false, Finset.sum_const_zero, add_zero, bytePoly, Finset.sum_mul]
  refine Finset.sum_congr rfl fun j hj => ?_
  have hj' : j < 8 := Finset.mem_range.1 hj
  have hbit : b.reverse.getLsbD (7 - j) = b.getLsbD j := by
    rw [BitVec.getLsbD_reverse, BitVec.getMsbD_eq_getLsbD, decide_eq_true (by omega), Bool.true_and]
    congr 1
    omega
  have hexp : 31 - j = 7 - j + 24 := by omega
  rw [hbit, hexp, pow_add, ite_mul, zero_mul]

/-- A byte update multiplies the mirrored register by `x^8` and brings the mirrored byte in at `x^32`. -/
theorem residue_hwByte (p r : Word) (b : Byte) :
    residue p (wordPoly (bitrev32 (hwByte p true r b))) =
      residue p (wordPoly (bitrev32 r) * X ^ 8 + bytePoly b.reverse * X ^ 32) := by
  rw [hwByte_reflected, bitrev32_iterate_lsbStep, residue_foldl_divStepS, foldl_shiftInPoly_zeros, bitrev32_xor,
    wordPoly_xor, wordPoly_bitrev32_zext32]
  exact congrArg (residue p) (by ring)

theorem residue_foldl_hwByte (msg : List Byte) (p init : Word) :
    residue p (wordPoly (bitrev32 (msg.foldl (hwByte p true) init))) =
      residue p (wordPoly (bitrev32 init) * X ^ (8 * msg.length) + messagePoly (reverseBytes msg) * X ^ 32) := by
  induction msg using List.reverseRecOn with
  | nil => simp [messagePoly, reverseBytes]
  | append_singleton msg b ih =>
    have hmirror : reverseBytes (msg ++ [b]) = reverseBytes msg ++ [b.reverse] := List.map_append
    rw [List.foldl_concat, residue_hwByte, map_add, map_mul, ih, ← map_mul, ← map_add, hmirror, messagePoly_append,
      List.length_append, List.length_singleton, Nat.mul_succ, pow_add]
    exact congrArg (residue p) (by ring)

end MirroredResidues

section Evaluator

theorem coeff_wordPoly (v : Word) {i : Nat} (hi : i < 32) :
    (wordPoly v).coeff i = if v.getLsbD i then 1 else 0 := by
  rw [wordPoly, finsetSum_coeff, Finset.sum_eq_single_of_mem i (Finset.mem_range.2 hi)]
  · cases v.getLsbD i <;> simp
  · intro j _ hj
    cases v.getLsbD j <;> simp [coeff_X_pow, hj.symm]

theorem wordPoly_injective {u v : Word} (h : wordPoly u = wordPoly v) : u = v := by
  refine BitVec.eq_of_getLsbD_eq fun i hi => ?_
  have hcoeff : (if u.getLsbD i then 1 else 0) = if v.getLsbD i then (1 : ZMod 2) else 0 := by
    rw [← coeff_wordPoly u hi, ← coeff_wordPoly v hi, h]
  generalize u.getLsbD i = a, v.getLsbD i = b at hcoeff ⊢
  revert a b
  decide

/-- R145: the mirror of the register at the end of the message, before the final mask. -/
theorem wordPoly_bitrev32_hwEval (msg : List Byte) (p init : Word) :
    wordPoly (bitrev32 (hwEval p true msg init 0#32)) =
      (wordPoly (bitrev32 init) * X ^ (8 * msg.length) + messagePoly (reverseBytes msg) * X ^ 32) %ₘ
        generator p := by
  rw [hwEval, BitVec.xor_zero, wordPoly_eq_of_residue (residue_foldl_hwByte msg p init)]

theorem hwEval_eq_xor (p : Word) (reflect : Bool) (msg : List Byte) (init fxor : Word) :
    hwEval p reflect msg init fxor = hwEval p reflect msg init 0#32 ^^^ fxor := by
  rw [hwEval, hwEval, BitVec.xor_zero]

/-- R145: from seed 0 the mirror is the divider over the mirrored message and four zero bytes. -/
theorem bitrev32_hwEval_seed_zero (msg : List Byte) (p : Word) :
    bitrev32 (hwEval p true msg 0#32 0#32) =
      divS (reverseBytes msg ++ [0#8, 0#8, 0#8, 0#8]) p 0#32 0#32 := by
  apply wordPoly_injective
  rw [wordPoly_bitrev32_hwEval, wordPoly_divS, messagePoly_append_four_zeros, bitrev32_zero, wordPoly_zero, zero_mul,
    zero_mul, add_zero]

/-- Settles O23: the value is the mirror of its own mirror; on byte `01` it is not the divider's. -/
theorem reflectedEvaluatorIsPolynomialRemainder : Obligations.ReflectedEvaluatorIsPolynomialRemainder := by
  refine ⟨fun msg p init fxor => ⟨_, wordPoly_bitrev32_hwEval msg p init, ?_⟩, fun msg p fxor => ?_,
    [0x01#8], 0x1EDC6F41#32, 0#32, 0#32, by decide +kernel⟩
  · rw [bitrev32_bitrev32, hwEval_eq_xor]
  · rw [← bitrev32_hwEval_seed_zero, bitrev32_bitrev32, hwEval_eq_xor]

end Evaluator

end Sys2Proof.Machine
end

section
/-! SUPPORT. `HWEVAL`, alone from an idle core: its value, and that without reflection it runs as the dividers do
(42_hw_eval.md R142 to R144). -/

namespace Sys2Proof.Machine

section Value

/-- Settles O26: the run of any command over the message, at the value of `HWEVAL`. -/
theorem hwevalComputesTheMessage : Obligations.HwevalComputesTheMessage :=
  fun _ hb hread hs => completesWith_commandValue (i := .hweval) rfl hb nofun hread hs

end Value

section DividerEquivalence

/-- The parameters and operands with which `HWEVAL` divides by `POLY`; a running command took `POLY` from there. -/
structure EvaluatesByDivision (s : State) : Prop where
  unreflected : s.params.hwReflect = false
  poly : s.poly = s.params.hwPoly
  snapshot : s.status.busy = true → s.w.poly = s.params.hwPoly

variable {i : Instr} {s t : State}

theorem EvaluatesByDivision.of_idle (hb : s.status.busy = false) (hr : s.params.hwReflect = false)
    (hp : s.poly = s.params.hwPoly) : EvaluatesByDivision s :=
  ⟨hr, hp, fun h => absurd (hb.symm.trans h) Bool.false_ne_true⟩

theorem EvaluatesByDivision.of_exec (hs : EvaluatesByDivision s) (h : exec i s = .next t) :
    EvaluatesByDivision t := by
  have hstep := ExecStep.of_exec h
  obtain ⟨hparams, -, hpoly, -⟩ := hstep.frame
  refine ⟨by rw [hparams, hs.unreflected], by rw [hparams, hpoly, hs.poly], fun hb => ?_⟩
  rw [hparams]
  cases hbs : s.status.busy with
  | true =>
    obtain ⟨hkept, -⟩ := hstep.snapshot_kept hbs
    rw [hkept, hs.snapshot hbs]
  | false =>
    rw [eq_accept_of_exec hbs hb h]
    exact hs.poly

/-- The state with another opcode in `w[OP]`: what a divider's run differs in from `HWEVAL`'s. -/
def State.withOpcode (o : BitVec 4) (s : State) : State := { s with w := { s.w with op := o } }

theorem messageStep_withOpcode (f : Word → Byte → Word) (v : Word) (o : BitVec 4) (s : State) :
    messageStep f v (s.withOpcode o) = (messageStep f v s).withOpcode o := by
  by_cases hk : s.w.k < s.w.len
  · have hread : (s.withOpcode o).memRead (s.withOpcode o).byteAddr = s.memRead s.byteAddr := rfl
    rw [messageStep_byte f v hk, messageStep_byte f v (s := s.withOpcode o) hk, byteStep, byteStep, hread]
    cases s.memRead s.byteAddr <;> rfl
  · rw [messageStep_complete f v hk, messageStep_complete f v (s := s.withOpcode o) hk]
    rfl

/-- R107, R144: with equal polynomials the byte updates are one function. -/
theorem EvaluatesByDivision.byteUpdate_eq (hs : EvaluatesByDivision s) (hi : i = .divs ∨ i = .divb)
    (hb : s.status.busy = true) : byteUpdate i s = byteUpdate .hweval s := by
  have hhw : byteUpdate .hweval s = divByteS s.w.poly := by
    rw [byteUpdate, hs.unreflected, hwByte_unreflected, hs.snapshot hb]
  rw [hhw]
  rcases hi with rfl | rfl
  · rfl
  · exact funext₂ (divByteB_eq_divByteS s.w.poly)

/-- A divider's step is `HWEVAL`'s, but for the opcode. -/
theorem EvaluatesByDivision.exec_divider (hs : EvaluatesByDivision s) (hi : i = .divs ∨ i = .divb)
    (h : exec .hweval s = .next t) (o : BitVec 4) :
    ∃ o', exec i (s.withOpcode o) = .next (t.withOpcode o') := by
  cases hb : s.status.busy with
  | true =>
    have hreads : readsMessage i = true := by rcases hi with rfl | rfl <;> rfl
    have hupdate : byteUpdate i (s.withOpcode o) = byteUpdate .hweval s := hs.byteUpdate_eq hi hb
    have hfinal : finalValue i (s.withOpcode o) = finalValue .hweval s := by rcases hi with rfl | rfl <;> rfl
    cases (exec_busy rfl hb).symm.trans h
    exact ⟨o, by rw [exec_busy (s := s.withOpcode o) hreads hb, hupdate, hfinal, messageStep_withOpcode]⟩
  | false =>
    cases (exec_idle (i := .hweval) hb nofun).symm.trans h
    refine ⟨opcodeOf i, ?_⟩
    rcases hi with rfl | rfl
    · exact exec_idle (i := .divs) (s := s.withOpcode o) hb nofun
    · exact exec_idle (i := .divb) (s := s.withOpcode o) hb nofun

/-- Step by step, whatever the reads answer. -/
theorem EvaluatesByDivision.runCommand_divider {n : Nat} (hs : EvaluatesByDivision s) (hi : i = .divs ∨ i = .divb)
    (h : runCommand .hweval n s = .next t) (o : BitVec 4) :
    ∃ o', runCommand i n (s.withOpcode o) = .next (t.withOpcode o') := by
  induction n generalizing s o with
  | zero =>
    cases h
    exact ⟨o, rfl⟩
  | succ n ih =>
    obtain ⟨u, hu⟩ := exec_next .hweval s
    obtain ⟨o₁, ho₁⟩ := hs.exec_divider hi hu o
    rw [runCommand_succ hu] at h
    obtain ⟨o', ho'⟩ := ih (hs.of_exec hu) h o₁
    exact ⟨o', by rw [runCommand_succ ho₁, ho']⟩

/-- Settles O31: both dividers' runs end where `HWEVAL`'s does, but for the hidden opcode. -/
theorem unreflectedHwevalIsTheDivider : Obligations.UnreflectedHwevalIsTheDivider := by
  intro s t n hb hr hp h
  have hs : EvaluatesByDivision s := .of_idle hb hr hp
  obtain ⟨o, ho⟩ := hs.runCommand_divider (.inl rfl) h s.w.op
  obtain ⟨o', ho'⟩ := hs.runCommand_divider (.inr rfl) h s.w.op
  exact ⟨_, _, ho, ho', rfl, rfl, rfl, rfl, rfl, rfl⟩

end DividerEquivalence

end Sys2Proof.Machine
end

section
/-! SUPPORT. A `CMD` write (60_exceptions.md R161 to R163, R168, R169, R174): what it schedules, what its acceptance
leaves, and that a lost one is only remembered. -/

namespace Sys2Proof.Machine

section DecodedStep

/-- R161: the step of a scheduled `CMD` write of a legal word to an idle core is `exec` of its command. -/
theorem step_cmdWrite {s : State} {i : Instr} {a : Access} {c : Word} {rest : List Event}
    (hev : s.events = .hostWrite a c :: rest) (hr : resolve s.params.crcBase a = .ok .cmd)
    (hb : s.status.busy = false) (hd : decode c = .ok i) : step s = exec i { s with events := rest } :=
  (step_cons hev).trans (hostWrite_accepts (s := { s with events := rest }) hr hb hd)

/-- R201: the scheduled engine step of a running command is `exec` of it. -/
theorem step_engine {s : State} {i : Instr} {rest : List Event} (hev : s.events = .engine :: rest)
    (hb : s.status.busy = true) (hc : commandOf s.w.op s.w.s = .ok i) :
    step s = exec i { s with events := rest } :=
  (step_cons hev).trans (engineStep_busy (s := { s with events := rest }) hb hc)

/-- The state of `withFetchWord` has the `CMD` write at the head of its schedule, and an idle core. -/
theorem step_withFetchWord (s : State) (i : Instr) :
    step (s.withFetchWord 32 (encode i).toNat) =
      exec i { s with status := { s.status with busy := false } } := by
  rw [State.withFetchWord, wordOfTableBits_toNat]
  exact step_cmdWrite (s := presentNext (encode i) s) rfl (resolve_access _ .cmd) rfl (decode_encode i)

/-- Settles O5: each clause is the step of the event at the head of the schedule. -/
theorem stepRunsTheDecodedCommand : Obligations.StepRunsTheDecodedCommand :=
  fun s i => ⟨fun _ _ _ hev hr hb hd => step_cmdWrite hev hr hb hd, fun _ hev hb hc => step_engine hev hb hc,
    fun hev hb hc => (step_nil hev).trans (engineStep_busy hb hc), step_withFetchWord s i⟩

end DecodedStep

section Acceptance

/-- Settles O6: acceptance is `accept`, and only the opcode of `TBUILD` clears `TVALID`. -/
theorem acceptanceSnapshotsTheOperands : Obligations.AcceptanceSnapshotsTheOperands := by
  intro i s hb ht
  refine ⟨_, exec_idle hb ht, rfl, rfl, rfl, rfl, rfl, fun hbuild => ?_, fun hother => ?_,
    rfl, rfl, rfl, rfl, rfl, rfl, rfl, rfl⟩
  · simp [(opcodeOf_eq_three_iff i).2 hbuild]
  · have hop : opcodeOf i ≠ 3#4 := fun h => ((opcodeOf_eq_three_iff i).1 h).elim hother
    simp [hop]

/-- R161, R165: an error at acceptance keeps `CMDLOST` and `TVALID` alone. -/
theorem failed_accepting (code : BitVec 4) (st : Status) : st.accepting.failed code =
    { busy := false, done := true, err := true, cmdLost := st.cmdLost, ecode := code, tvalid := st.tvalid } :=
  rfl

/-- Settles O8: the refusal is `raise .tableInvalid`, with `TVALID` at 0 as it was. -/
theorem tevalNeedsAValidTable : Obligations.TevalNeedsAValidTable := by
  intro s hb ht
  rw [exec_idle_teval_invalid hb ht, raise, beginAcceptance, failed_accepting, ht]
  rfl

/-- R161 to R163: a `CMD` write to an idle core starts a command or ends in an error at once. -/
theorem presentCommand_idle {s t : State} {c : Word} (hb : s.status.busy = false)
    (h : presentCommand c s = .next t) :
    (∃ i, t = accept i (opcodeOf i == 3#4) (seedOf i s) s) ∨ ∃ e, t = raise e (beginAcceptance s) := by
  rcases presentCommand_cases c s with ⟨hrun, -⟩ | ⟨-, -, e⟩ | ⟨-, i, -, e⟩
  · cases hb.symm.trans hrun
  · exact .inr ⟨_, Host.Outcome.next.inj (h.symm.trans e)⟩
  · cases ExecStep.of_exec (e.symm.trans h) with
    | accepted _ => exact .inl ⟨i, rfl⟩
    | noTable _ => exact .inr ⟨_, rfl⟩
    | busError hrun | byte hrun | complete hrun | entry hrun | built hrun => cases hb.symm.trans hrun

/-- R161: a `CMD` write that starts a command clears the old outcome. -/
theorem presentCommand_started {s t : State} {c : Word} (hb : s.status.busy = false)
    (h : presentCommand c s = .next t) (ht : t.status.busy = true) :
    t.status.done = false ∧ t.status.err = false ∧ t.status.ecode = 0#4 := by
  rcases presentCommand_idle hb h with ⟨i, rfl⟩ | ⟨e, rfl⟩
  · exact ⟨rfl, rfl, rfl⟩
  · cases ht

/-- Settles O51: the host's two ways back from an error are the `STATUS` write of R32 and a new command. -/
theorem errorsAreClearedByTheHost : Obligations.ErrorsAreClearedByTheHost := by
  refine ⟨fun s v h2 => ?_, fun s t c hb h ht => presentCommand_started hb h ht⟩
  rw [returnFromError, writeReg_status_status, clearedBy_eq]
  exact ⟨if_pos h2, if_pos h2, rfl⟩

end Acceptance

section LostCommands

/-- R168: only reset and a `STATUS` write with bit 3 set clear `CMDLOST`. -/
theorem Transition.cmdLost_cleared {s t : State} {e : Event} (h : Transition s e t)
    (hs : s.status.cmdLost = true) (ht : t.status.cmdLost = false) :
    e = .rst ∨ ∃ a v, e = .hostWrite a v ∧ resolve s.params.crcBase a = .ok .status ∧
      v.getLsbD 3 = true := by
  have hne : t.status.cmdLost ≠ s.status.cmdLost := by rw [hs, ht]; exact Bool.false_ne_true
  cases h with
  | rst => exact .inl rfl
  | @regWrite a v r hr _ =>
    cases r with
    | status => exact .inr ⟨a, v, rfl, hr, by simpa [hs] using ht⟩
    | id | cap | hwpoly | ctrl | cmd | poly | init | fxor | addr | len | result | tidx | tdata | faddr
      | reserved => exact absurd rfl hne
  | lost _ _ => cases ht
  | busError | byte | hostRead | illegal | accepted | noTable | idle | complete | entry | built | busWrite
    | makeVisible => exact absurd rfl hne

/-- Settles O7: a `CMD` write to a running core is `loseCommand`, and a cleared `CMDLOST` is a case of the
transition. -/
theorem commandWhileBusyIsLost : Obligations.CommandWhileBusyIsLost := by
  refine ⟨fun s c hb => ?_, fun e s t h => (Transition.of_agentStep h).cmdLost_cleared⟩
  rw [presentCommand, if_pos hb]
  rfl

end LostCommands

end Sys2Proof.Machine
end

section
/-! SUPPORT. How a running command ends (60_exceptions.md R164, R165, R167, R170 to R172): its completion step, the
first failing read, and the interrupt that both assert. -/

namespace Sys2Proof.Machine

section CompletionStep

/-- R164: the step of a command over the message after its last byte. -/
theorem exec_completes {i : Instr} {s : State} (hi : readsMessage i = true) (hb : s.status.busy = true)
    (hk : ¬ s.w.k < s.w.len) : exec i s = .next (completeResult (finalValue i s) s) := by
  rw [exec_busy hi hb, messageStep_complete _ _ hk]

/-- Settles O11: the four commands over the message differ in `finalValue` alone. -/
theorem completionWritesTheResult : Obligations.CompletionWritesTheResult := by
  refine fun s hb => ⟨fun hk => ?_, fun hk strategy => ?_⟩
  · exact ⟨⟨_, exec_completes (i := .divs) rfl hb hk, rfl⟩, ⟨_, exec_completes (i := .divb) rfl hb hk, rfl⟩,
      ⟨_, exec_completes (i := .teval) rfl hb hk, rfl⟩, ⟨_, exec_completes (i := .hweval) rfl hb hk, rfl⟩⟩
  · refine ⟨completeTable s, ?_, rfl⟩
    rw [exec_busy_tbuild hb, if_neg hk]

end CompletionStep

section FailingRead

variable {i : Instr} {s : State}

/-- R167: the step of a command over the message where the next byte's read fails. -/
theorem exec_busError (hi : readsMessage i = true) (hb : s.status.busy = true) (hk : s.w.k < s.w.len)
    (he : busErrAt s.params s.byteAddr = true) :
    exec i s = .next (raise (.busError s.byteAddr) (s.issueRead s.byteAddr)) := by
  rw [exec_busy hi hb, messageStep_byte _ _ hk, byteStep_busError _ he]

/-- Settles O12: the failing read raises the error, which leaves the engine idle. -/
theorem failingReadEndsTheCommand : Obligations.FailingReadEndsTheCommand :=
  fun _ _ hi hb hk he => ⟨_, exec_busError hi hb hk he, rfl, _, engineStep_idle rfl, rfl⟩

/-- `afterBytes` where bytes may have raced: the accumulator and the count of free values are then any. -/
def afterReads (i : Instr) (s : State) (k : Nat) (acc : Word) (draws : Nat) : State :=
  { afterBytes i s k with
    w := { (afterBytes i s k).w with acc := acc }
    draws := draws }

theorem accept_eq_afterReads (i : Instr) (s : State) :
    accept i (opcodeOf i == 3#4) (seedOf i s) s = afterReads i s 0 (seedOf i s) s.draws := rfl

theorem afterReads_index_lt {k : Nat} (hk : k < s.len.toNat) (acc : Word) (draws : Nat) :
    (afterReads i s k acc draws).w.k < (afterReads i s k acc draws).w.len :=
  (afterBytes_index_lt_iff (i := i) hk.le).2 hk

/-- The engine step over byte `k`, whichever of its values is read. -/
theorem exec_afterReads (hi : readsMessage i = true) {k : Nat} (hk : k < s.len.toNat)
    (he : busErrAt s.params (s.addr + BitVec.ofNat 32 k) = false) (acc : Word) (draws : Nat) :
    ∃ acc' draws', exec i (afterReads i s k acc draws) = .next (afterReads i s (k + 1) acc' draws') := by
  rcases byteStep_cases (byteUpdate i (afterReads i s k acc draws)) (afterReads i s k acc draws) with
    ⟨herr, -⟩ | ⟨-, b, -, hstep⟩
  · cases he.symm.trans herr
  · refine ⟨byteUpdate i (afterReads i s k acc draws) acc b,
      ((afterReads i s k acc draws).issueRead (afterReads i s k acc draws).byteAddr).draws, ?_⟩
    rw [exec_busy hi rfl, messageStep_byte _ _ (afterReads_index_lt hk acc draws), hstep]
    simp only [afterReads, afterBytes, readAddresses_succ, BitVec.ofNat_add, List.cons_append]
    rfl

/-- By induction on the number `n` of bytes before the failing one: the run ends in the error of its read. -/
theorem runCommand_afterReads (hi : readsMessage i = true) {j : Nat} (hj : j < s.len.toNat)
    (hread : ∀ k < j, busErrAt s.params (s.addr + BitVec.ofNat 32 k) = false)
    (he : busErrAt s.params (s.addr + BitVec.ofNat 32 j) = true) {n k : Nat} (hk : k + n = j) (acc : Word)
    (draws : Nat) : ∃ acc' draws', runCommand i (n + 1) (afterReads i s k acc draws) =
      .next (raise (.busError (s.addr + BitVec.ofNat 32 j))
        ((afterReads i s j acc' draws').issueRead (s.addr + BitVec.ofNat 32 j))) := by
  induction n generalizing k acc draws with
  | zero =>
    obtain rfl : k = j := hk
    exact ⟨acc, draws, runCommand_succ (exec_busError hi rfl (afterReads_index_lt hj acc draws) he)⟩
  | succ n ih =>
    obtain ⟨acc', draws', hstep⟩ := exec_afterReads (s := s) hi (k := k) (by omega) (hread k (by omega)) acc draws
    rw [runCommand_succ hstep]
    exact ih (by omega) acc' draws'

/-- Settles O28: acceptance, `j` bytes that are read, and the error of byte `j`. -/
theorem firstBusErrorEndsTheRun : Obligations.FirstBusErrorEndsTheRun := by
  intro i s j hi hb ht hj hread he
  obtain ⟨acc, draws, hrun⟩ :=
    runCommand_afterReads hi hj hread he (Nat.zero_add j) (seedOf i s) s.draws
  rw [← accept_eq_afterReads] at hrun
  refine ⟨_, (runCommand_succ (exec_idle hb ht)).trans hrun, ?_⟩
  have hop : (opcodeOf i == 3#4) = false := by simpa using opcodeOf_ne_three hi
  simp [raise, State.issueRead, afterReads, afterBytes, accept, Status.started, Status.failed,
    Status.accepting, CmdError.code, CmdError.faddr, readAddresses_succ, hop]

end FailingRead

section EndOfRun

/-- R172: a running command ends by reset, or in an engine step that sets `DONE`. -/
theorem Transition.command_ends {s t : State} {e : Event} (h : Transition s e t) (hs : s.status.busy = true)
    (ht : t.status.busy = false) : e = .rst ∨ (e = .engine ∧ t.status.done = true) := by
  cases h with
  | rst => exact .inl rfl
  | busError | complete | built => exact .inr ⟨rfl, rfl⟩
  | illegal _ hb _ | accepted _ hb _ _ | noTable _ hb _ _ | idle hb => cases hs.symm.trans hb
  | regWrite _ _ => cases hs.symm.trans ((writeReg_status_busy _ _ _).symm.trans ht)
  | hostRead | lost | byte | entry | busWrite | makeVisible => cases hs.symm.trans ht

/-- Settles O42: a step is a transition, and `takeEvent` keeps `STATUS`. -/
theorem onlyResetCancelsACommand : Obligations.OnlyResetCancelsACommand :=
  fun _ _ h hs ht => (Transition.of_step h).command_ends hs ht

/-- R164, R165: the step of a command that leaves the core idle has set `DONE`. -/
theorem ExecStep.done_of_idle {i : Instr} {s t : State} (h : ExecStep i s t) (hs : s.status.busy = true)
    (ht : t.status.busy = false) : t.status.done = true := by
  cases h with
  | busError | complete | built | noTable => rfl
  | byte | entry => cases hs.symm.trans ht
  | accepted => cases ht

end EndOfRun

section Interrupt

variable {s t : State}

/-- R170. -/
theorem irq_eq_true_iff (s : State) : s.irq = true ↔ s.ie = true ∧ s.status.done = true := by
  rw [State.irq, Bool.and_eq_true]

theorem irq_of_not_done (h : s.status.done = false) : s.irq = false := by
  rw [State.irq, h, Bool.and_false]

theorem irq_of_not_enabled (h : s.ie = false) : s.irq = false := by
  rw [State.irq, h, Bool.false_and]

/-- R168, R170: `CMDLOST` does not assert the interrupt. -/
theorem irq_loseCommand (s : State) : (loseCommand s).irq = s.irq := rfl

/-- R161 to R163, R170: a refusal at acceptance is a completion, and asserts the interrupt as one. -/
theorem presentCommand_refused_irq {c : Word} (hb : s.status.busy = false)
    (h : presentCommand c s = .next t) (hie : s.ie = true) (ht : t.status.busy = false) : t.irq = true := by
  rcases presentCommand_idle hb h with ⟨i, rfl⟩ | ⟨e, rfl⟩
  · cases ht
  · exact (irq_eq_true_iff _).2 ⟨hie, rfl⟩

/-- R170: while `IE = 1`, every completion of a running command asserts the interrupt. -/
theorem exec_ends_irq {i : Instr} (h : exec i s = .next t) (hb : s.status.busy = true) (hie : s.ie = true)
    (ht : t.status.busy = false) : t.irq = true := by
  have hstep := ExecStep.of_exec h
  obtain ⟨-, hie', -⟩ := hstep.frame
  exact (irq_eq_true_iff t).2 ⟨hie'.trans hie, hstep.done_of_idle hb ht⟩

/-- Settles O53: each clause is what the write or the step leaves in `IE` and `DONE`. -/
theorem interruptFollowsDone : Obligations.InterruptFollowsDone := by
  refine ⟨irq_eq_true_iff, fun s v h1 => irq_of_not_done ?_, fun s t c hb h ht => irq_of_not_done ?_,
    fun s t c hb h hie ht => presentCommand_refused_irq hb h hie ht, fun s t c hb h => ?_,
    fun s v h0 => ⟨irq_of_not_enabled h0, rfl⟩, fun s v h0 hd => (irq_eq_true_iff _).2 ⟨h0, hd⟩,
    fun i s t h hb hie ht => exec_ends_irq h hb hie ht⟩
  · simp [h1]
  · exact (presentCommand_started hb h ht).1
  · have hlost : presentCommand c s = .next (loseCommand s) := commandWhileBusyIsLost.1 s c hb
    cases hlost.symm.trans h
    exact irq_loseCommand s

end Interrupt

end Sys2Proof.Machine
end

section
/-! SUPPORT. When the machine stops: its one fault, and the refused host accesses (10_state.md R23, R45;
60_exceptions.md R160). -/

namespace Sys2Proof.Machine

/-- Every step of an agent goes on, but for an engine step with no command to run (R45) and a host access that reaches
no slot (R23). -/
theorem agentStep_next_or_stops (e : Event) (s : State) :
    (∃ t, agentStep e s = .next t) ∨
    (s.status.busy = true ∧ (∀ i, commandOf s.w.op s.w.s ≠ .ok i) ∧ agentStep e s = .fault .corruptOpcode) ∨
    ∃ a r, resolve s.params.crcBase a = .error r ∧ (e = .hostRead a ∨ ∃ v, e = .hostWrite a v) ∧
      agentStep e s = .refused r := by
  cases e with
  | hostRead a =>
    cases hr : resolve s.params.crcBase a with
    | ok reg => exact .inl ⟨_, hostRead_of_resolve hr⟩
    | error r => exact .inr (.inr ⟨a, r, hr, .inl rfl, by simp only [agentStep, hostRead, hr]⟩)
  | hostWrite a v =>
    cases hr : resolve s.params.crcBase a with
    | ok reg => exact .inl (hostWrite_next hr v)
    | error r => exact .inr (.inr ⟨a, r, hr, .inr ⟨v, rfl⟩, by simp only [agentStep, hostWrite, hr]⟩)
  | engine =>
    rcases engineStep_cases s with ⟨-, hnext⟩ | hfault | ⟨-, i, -, hx⟩
    · exact .inl ⟨s, hnext⟩
    · exact .inr (.inl hfault)
    · obtain ⟨t, ht⟩ := exec_next i s
      exact .inl ⟨t, hx.trans ht⟩
  | rst | busWrite | makeVisible => exact .inl ⟨_, rfl⟩

/-- R45: only a running core whose registers name no command faults. -/
theorem no_command_of_fault {s : State} {r : Fault} (h : step s = .fault r) :
    s.status.busy = true ∧ ∀ i, commandOf s.w.op s.w.s ≠ .ok i := by
  rcases agentStep_next_or_stops (nextEvent s) (takeEvent s) with
    ⟨t, hnext⟩ | ⟨hb, hnone, -⟩ | ⟨a, r', -, -, hrefused⟩
  · cases hnext.symm.trans h
  · exact ⟨hb, hnone⟩
  · cases hrefused.symm.trans h

/-- R23: only a host access that reaches no slot is refused, with the reason of `resolve`. -/
theorem host_access_of_refused {s : State} {r : Refusal} (h : step s = .refused r) :
    ∃ a, resolve s.params.crcBase a = .error r ∧
      (nextEvent s = .hostRead a ∨ ∃ v, nextEvent s = .hostWrite a v) := by
  rcases agentStep_next_or_stops (nextEvent s) (takeEvent s) with
    ⟨t, hnext⟩ | ⟨-, -, hfault⟩ | ⟨a, r', hr, he, hrefused⟩
  · cases hnext.symm.trans h
  · cases hfault.symm.trans h
  · cases hrefused.symm.trans h
    exact ⟨a, hr, he⟩

/-- Settles O37: by the invariant a running core names a command, and a refusal is a host access's. -/
theorem noReachableStepFaults : Obligations.NoReachableStepFaults := by
  refine ⟨fun s r hs h => ?_, fun s r h => host_access_of_refused h⟩
  obtain ⟨hb, hnone⟩ := no_command_of_fault h
  obtain ⟨i, hc⟩ := hs.running hb
  exact hnone i hc

end Sys2Proof.Machine
end

section
/-! SUPPORT. What the agents do to each other while a command runs: a bus master's write to the next byte, host writes
to the registers, and host writes in the clock of a completion (70_reset_and_hazards.md R196, R198, R199, R203). -/

namespace Sys2Proof.Machine

section RacingByte

theorem heldBefore_cons_same (a : Nat) (v : Byte) (old : List Host.Cell) :
    heldBefore a ((a, v) :: old) = v :: heldBefore a old := by
  simp [heldBefore]

/-- R196: a byte that did not race has, after a bus master's write, its old value as the only other one. -/
theorem eq_of_mem_raceValues_busWrite {s : State} {a : Word} {b v : Byte} (hb : s.status.busy = true)
    (hr : s.raceValues a = []) (hv : v ∈ (busWrite a b s).raceValues a) : v = s.mem.read a.toNat := by
  have hearlier : ∀ u ∈ heldBefore a.toNat s.window ++ heldBefore a.toNat s.unsynced ++
      heldLater a.toNat (s.w.len - s.w.k).toNat s.events, u = s.mem.read a.toNat := fun u hu => by
    simpa using List.filter_eq_nil_iff.1 hr u hu
  have hmem : v = s.mem.read a.toNat ∨ v ∈ heldBefore a.toNat s.window ++ heldBefore a.toNat s.unsynced ++
      heldLater a.toNat (s.w.len - s.w.k).toNat s.events := by
    have hheld := List.mem_of_mem_filter hv
    simp only [busWrite_window, busWrite_unsynced, busWrite_w, busWrite_events, hb, if_true,
      heldBefore_cons_same, List.mem_append, List.mem_cons] at hheld ⊢
    tauto
  exact hmem.elim id (hearlier v)

/-- Settles O58: the step reads the content, which is the written byte, or the only other value, the old one. -/
theorem racingByteReadsOldOrNew : Obligations.RacingByteReadsOldOrNew := by
  intro i s t b hi hm hb hk he hr h
  have hupdate : byteUpdate i (busWrite (s.w.addr + s.w.k) b s) = byteUpdate i s := byteUpdate_congr i rfl rfl rfl
  rw [exec_busy (s := busWrite _ b s) hi hb, messageStep_byte (s := busWrite _ b s) _ _ hk, hupdate] at h
  rcases byteStep_cases (byteUpdate i s) (busWrite (s.w.addr + s.w.k) b s) with ⟨herr, -⟩ | ⟨-, v, hv, hstep⟩
  · cases he.symm.trans herr
  · rw [hstep] at h
    cases h
    rcases List.mem_cons.1 hv with hnew | hold
    · exact .inr (congrArg (byteUpdate i s s.w.acc) (hnew.trans (Memory.read_write_same hm _ _)))
    · exact .inl (congrArg (byteUpdate i s s.w.acc) (eq_of_mem_raceValues_busWrite hb hr hold))

end RacingByte

section RegisterWrites

/-- State `s` with the registers that only the host writes taken from `h`. -/
def State.withHostRegisters (s h : State) : State :=
  { s with ie := h.ie, poly := h.poly, init := h.init, fxor := h.fxor, addr := h.addr, len := h.len, idx := h.idx }

variable {i : Instr} {s t : State} {r : Reg}

/-- R32: any register but `STATUS` that a host write changes is one that only the host writes. -/
theorem writeReg_withHostRegisters (hr : r ≠ .status) (v : Word) (s t : State) :
    writeReg v (t.withHostRegisters s) r = t.withHostRegisters (writeReg v s r) := by
  cases r with
  | status => exact absurd rfl hr
  | id | cap | hwpoly | ctrl | cmd | poly | init | fxor | addr | len | result | tidx | tdata | faddr
    | reserved => rfl

/-- R44, R199: no command writes the host's registers. -/
theorem ExecStep.withHostRegisters_eq (h : ExecStep i s t) : t.withHostRegisters s = t := by
  cases h <;> rfl

theorem byteStep_withHostRegisters (f : Word → Byte → Word) (h s : State) :
    byteStep f (s.withHostRegisters h) = (byteStep f s).withHostRegisters h := by
  have hread : (s.withHostRegisters h).memRead (s.withHostRegisters h).byteAddr = s.memRead s.byteAddr := rfl
  rw [byteStep, byteStep, hread]
  cases s.memRead s.byteAddr with
  | byte b => rfl
  | busError => rfl

theorem messageStep_withHostRegisters (f : Word → Byte → Word) (v : Word) (h s : State) :
    messageStep f v (s.withHostRegisters h) = (messageStep f v s).withHostRegisters h := by
  by_cases hk : s.w.k < s.w.len
  · rw [messageStep_byte f v hk, messageStep_byte f v (s := s.withHostRegisters h) hk, byteStep_withHostRegisters]
  · rw [messageStep_complete f v hk, messageStep_complete f v (s := s.withHostRegisters h) hk]
    rfl

theorem finalValue_withHostRegisters (i : Instr) (h s : State) :
    finalValue i (s.withHostRegisters h) = finalValue i s := by
  cases i <;> rfl

/-- R44, R199: a running command reads its snapshot and none of the host's registers. -/
theorem exec_withHostRegisters (hb : s.status.busy = true) (hx : exec i s = .next t) (h : State) :
    exec i (s.withHostRegisters h) = .next (t.withHostRegisters h) := by
  cases hi : readsMessage i with
  | true =>
    have hupdate : byteUpdate i (s.withHostRegisters h) = byteUpdate i s := byteUpdate_congr i rfl rfl rfl
    cases (exec_busy hi hb).symm.trans hx
    rw [exec_busy (s := s.withHostRegisters h) hi hb, hupdate, finalValue_withHostRegisters,
      messageStep_withHostRegisters]
  | false =>
    obtain ⟨b, rfl⟩ := exists_tbuild_of_not_readsMessage hi
    cases (exec_busy_tbuild hb).symm.trans hx
    rw [exec_busy_tbuild (s := s.withHostRegisters h) hb, apply_ite (State.withHostRegisters · h)]
    rfl

/-- A step of a running command commutes with a write to a register that only the host writes. -/
theorem exec_writeReg (hr : r ≠ .status) (hb : s.status.busy = true) (hx : exec i s = .next t) (v : Word) :
    exec i (writeReg v s r) = .next (writeReg v t r) :=
  calc exec i (writeReg v s r)
      = exec i (s.withHostRegisters (writeReg v s r)) :=
        congrArg (exec i) (writeReg_withHostRegisters hr v s s)
    _ = .next (t.withHostRegisters (writeReg v s r)) := exec_withHostRegisters hb hx _
    _ = .next (writeReg v t r) := by
      rw [← writeReg_withHostRegisters hr, (ExecStep.of_exec hx).withHostRegisters_eq]

theorem engineStep_writeReg (hr : r ≠ .status) (hb : s.status.busy = true) (h : engineStep s = .next t)
    (v : Word) : engineStep (writeReg v s r) = .next (writeReg v t r) := by
  rcases engineStep_cases s with ⟨hidle, -⟩ | ⟨-, -, e⟩ | ⟨-, i, hc, e⟩
  · cases hb.symm.trans hidle
  · cases e.symm.trans h
  · rw [engineStep_busy (by rwa [writeReg_status_busy]) (by rwa [writeReg_w])]
    exact exec_writeReg hr hb (e.symm.trans h) v

theorem readReg_writeReg_operand (hr : r ∈ [Reg.poly, .init, .fxor, .addr, .len]) (v : Word) (s : State) :
    readReg (writeReg v s r) r = v := by
  simp only [List.mem_cons, List.not_mem_nil, or_false] at hr
  rcases hr with rfl | rfl | rfl | rfl | rfl <;> rfl

/-- Settles O56: none of the registers is `CMD` or `STATUS`. -/
theorem operandWriteCommutesWithTheEngine : Obligations.OperandWriteCommutesWithTheEngine := by
  refine ⟨fun s r v hr => ?_, fun s t r v hr hb h => ?_⟩
  · have hc : r ≠ .cmd := fun e => absurd (e ▸ hr) (by decide)
    exact ⟨_, hostWrite_access hc s v, readReg_writeReg_operand hr v s, fun _ => writeReg_w v s r⟩
  · have hs : r ≠ .status := fun e => absurd (e ▸ hr) (by decide)
    exact engineStep_writeReg hs hb h v

end RegisterWrites

section PartTable

/-- R40: without a valid table `TDATA` reads 0, whatever `TIDX` names. -/
theorem readReg_tdata_of_not_tvalid {s : State} (h : s.status.tvalid = false) : readReg s .tdata = 0#32 :=
  if_neg (Bool.eq_false_iff.1 h)

/-- Settles O55: a running `TBUILD` has no valid table, by the invariant, and a `CMD` write to it is lost. -/
theorem partTableIsNeverSeen : Obligations.PartTableIsNeverSeen := by
  intro s hs hb h3
  have htv : s.status.tvalid = false := hs.building hb h3
  exact ⟨htv, readReg_tdata_of_not_tvalid htv, fun c => ⟨_, commandWhileBusyIsLost.1 s c hb, rfl, rfl, rfl⟩⟩

end PartTable

section SameClockWrites

variable {i : Instr} {s : State}

/-- R164: what a completion step leaves in `STATUS`. -/
theorem exec_of_completionDue (h : completionDue i s) :
    ∃ t, exec i s = .next t ∧ t.status.done = true ∧ t.status.busy = false ∧
      t.status.cmdLost = s.status.cmdLost := by
  obtain ⟨hb, hk⟩ := h
  cases hi : readsMessage i with
  | true =>
    rw [if_pos hi] at hk
    exact ⟨_, exec_completes hi hb hk, rfl, rfl, rfl⟩
  | false =>
    obtain ⟨b, rfl⟩ := exists_tbuild_of_not_readsMessage hi
    have hdone : ¬ s.w.k < 256#32 := hk
    refine ⟨completeTable s, ?_, rfl, rfl, rfl⟩
    rw [exec_busy_tbuild hb, if_neg hdone]

/-- Settles O57: both writes leave what the command's last step reads. -/
theorem completionWinsOverSameClockWrites : Obligations.CompletionWinsOverSameClockWrites := by
  refine ⟨fun i s h => ⟨fun v => ?_, fun c => ?_⟩, fun i s hi hb hk he => ⟨fun v => ?_, fun c => ?_⟩⟩
  · obtain ⟨t, ht, hdone, -⟩ := exec_of_completionDue (s := writeReg v s .status) h
    exact ⟨t, ht, hdone⟩
  · obtain ⟨t, ht, hdone, hidle, hlost⟩ := exec_of_completionDue (s := loseCommand s) h
    exact ⟨_, t, commandWhileBusyIsLost.1 s c h.1, ht, hlost, hdone, hidle⟩
  · exact ⟨_, exec_busError (s := writeReg v s .status) hi hb hk he, rfl, rfl, rfl⟩
  · exact ⟨_, _, commandWhileBusyIsLost.1 s c hb, exec_busError (s := loseCommand s) hi hb hk he, rfl, rfl, rfl⟩

end SameClockWrites

end Sys2Proof.Machine
end

section
/-! SUPPORT. The working registers between commands (93_implementation_defined.md U2): an idle core keeps them, which is
the model's choice (log 23). -/

namespace Sys2Proof.Machine

section WorkingRegisters

variable {s t : State}

/-- Only acceptance, a consumed byte and a table entry write the working registers; each leaves the core busy. -/
theorem ExecStep.w_eq_of_idle {i : Instr} (h : ExecStep i s t) (ht : t.status.busy = false) : t.w = s.w := by
  cases h with
  | accepted => cases ht
  | byte hb _ | entry hb _ => cases hb.symm.trans ht
  | busError | complete | built | noTable => rfl

/-- Of the transitions from idle to idle, reset alone writes the working registers (R191). -/
theorem Transition.w_eq_of_idle {e : Event} (h : Transition s e t) (he : e ≠ .rst) (hs : s.status.busy = false)
    (ht : t.status.busy = false) : t.w = s.w := by
  cases h with
  | rst => exact absurd rfl he
  | accepted => cases ht
  | lost _ hb | busError hb _ _ _ _ | byte hb _ _ _ _ _ | complete hb _ _ _ | entry hb _ _ | built hb _ _ =>
    cases hb.symm.trans hs
  | regWrite _ _ => exact writeReg_w _ _ _
  | hostRead | illegal | noTable | idle | busWrite | makeVisible => rfl

/-- Settles O60: a command's step is an `ExecStep`, an agent's step a `Transition`. -/
theorem workingRegistersStayBetweenCommands : Obligations.WorkingRegistersStayBetweenCommands :=
  ⟨fun _ _ _ h ht => (ExecStep.of_exec h).w_eq_of_idle ht,
    fun _ _ _ he h hs ht => (Transition.of_agentStep h).w_eq_of_idle he hs ht⟩

end WorkingRegisters

end Sys2Proof.Machine
end
